-- ==== Sys2Proof/Word.lean ====
section
/-! DEFINITION. The sequences of bytes the spec computes with (00_scope.md R7): bytes, words, blocks, the 4 by 4
cipher state, and XOR on words. -/

namespace Sys2Proof

/-- A byte: 8 bits, numbered 7 down to 0 (R7). -/
abbrev Byte := BitVec 8

/-- A word: the sequence of bytes `w[0], w[1], w[2], w[3]` (R7). -/
abbrev Word := Vector Byte 4

/-- A block, a key or a round key: the sequence of bytes `b[0..15]` (R7). -/
abbrev Block := Vector Byte 16

/-- The cipher state: `S[r][c]`, row `r`, column `c` (R7). The outer vector is the rows. -/
abbrev Matrix := Vector (Vector Byte 4) 4

/-- The round-key schedule: 44 words (10_state.md R21). -/
abbrev Schedule := Vector Word 44

/-- Byte-wise XOR of two words. -/
def Word.xor (a b : Word) : Word := Vector.ofFn fun k => a.get k ^^^ b.get k

/-- `S[r][c]`. -/
def Matrix.at (s : Matrix) (r c : Fin 4) : Byte := (s.get r).get c

/-- The state whose byte at row `r`, column `c` is `f r c`. -/
def Matrix.ofFn (f : Fin 4 → Fin 4 → Byte) : Matrix := Vector.ofFn fun r => Vector.ofFn fun c => f r c

/-- Sixteen zero bytes. -/
def Block.zero : Block := Vector.replicate 16 0#8

/-- The state of sixteen zero bytes. -/
def Matrix.zero : Matrix := Vector.replicate 4 (Vector.replicate 4 0#8)

end Sys2Proof
end

