-- ==== Sys2Proof/Machine/Operands.lean ====
section
/-! DEFINITION. The fields of the command word and the packing of byte sequences onto the buses and into 32-bit
entries (20_memory.md R48; 30_encoding.md R61 to R63). -/

namespace Sys2Proof.Machine

/-- `op = cmd[7:4]` (30_encoding.md R61). -/
def cmdOp (cmd : BitVec 8) : BitVec 4 := cmd.extractLsb' 4 4

/-- `n = cmd[3:0]` (30_encoding.md R61). -/
def cmdN (cmd : BitVec 8) : BitVec 4 := cmd.extractLsb' 0 4

/-- Byte `k` of a 128-bit bus: bits `[127 - 8*k : 120 - 8*k]` (20_memory.md R48). -/
def busByte (d : BitVec 128) (k : Nat) : Byte := d.extractLsb' (120 - 8 * k) 8

/-- The 16 bytes on a bus, byte 0 first (20_memory.md R48). -/
def blockOfBus (d : BitVec 128) : Block := Vector.ofFn fun k => busByte d k.val

/-- The bytes of a list side by side, the first in the most significant place. -/
def packBytes (bs : List Byte) : Nat := bs.foldl (fun acc b => acc * 256 + b.toNat) 0

/-- The bus value that carries a block: its 32-digit spelling read as one number (20_memory.md R48). -/
def busOfBlock (b : Block) : BitVec 128 := BitVec.ofNat 128 (packBytes b.toList)

/-- The 32-bit integer of a word: byte `k` at bits `[31 - 8*k : 24 - 8*k]` (20_memory.md R48). -/
def wordPack (w : Word) : BitVec 32 := BitVec.ofNat 32 (packBytes w.toList)

/-- The operands of GFMUL as a data operand: `a` in byte 0, `b` in byte 1 (30_encoding.md R62), and zeros in the bytes
that are ignored, as the text form writes them (R68). -/
def factorBlock (a b : Byte) : Block :=
  Vector.ofFn fun k => if k.val = 0 then a else if k.val = 1 then b else 0#8

/-- The data result of GFMUL: the product in byte 0, bytes 1..15 zero (30_encoding.md R63). -/
def productBlock (p : Byte) : Block := Vector.ofFn fun k => if k.val = 0 then p else 0#8

end Sys2Proof.Machine
end

