-- ==== Sys2Proof/Syntax.lean ====
section
/-! DEFINITION. The five commands with their operands, as the text form of 30_encoding.md R68 writes them: one
constructor per row of the opcode table. -/

namespace Sys2Proof

/-- A command (00_scope.md R9; 30_encoding.md R64). The data operand `din` is written as the operand each command
takes from it (R62): a key, a block, two factors, or nothing. -/
inductive Instr where
  /-- `KEXP key` (41_key_scheduler.md R98). -/
  | kexp (key : Block)
  /-- `ENC block` (42_round_engine.md R117). -/
  | enc (block : Block)
  /-- `DEC block` (42_round_engine.md R118). -/
  | dec (block : Block)
  /-- `RDRK n` (41_key_scheduler.md R101); legal for `n` in 0..10. -/
  | rdrk (n : BitVec 4)
  /-- `GFMUL a, b` (40_gf_arithmetic.md R86). -/
  | gfmul (a b : Byte)
  deriving DecidableEq, Repr

end Sys2Proof
end

