-- ==== Sys2Proof/WellFormed.lean ====
section
/-! DEFINITION. Which commands have an encoding: the constraint column of 30_encoding.md R64. -/

namespace Sys2Proof

/-- A round-key number is legal when it is at most 10 (30_encoding.md R64, R65). -/
def legalRoundKey (n : BitVec 4) : Bool := decide (n.toNat ≤ 10)

/-- The command has a legal command word: only RDRK has a constraint (R64). -/
def Instr.wf : Instr → Bool
  | .kexp _ => true
  | .enc _ => true
  | .dec _ => true
  | .rdrk n => legalRoundKey n
  | .gfmul _ _ => true

end Sys2Proof
end

