-- ==== Sys2Proof/Decode.lean ====
section
/-! DEFINITION. The decoder of 30_encoding.md R70, total on all 256 command words, and the encoder of R64 and R68. -/

namespace Sys2Proof

open Sys2Proof.Machine

/-- Why a command word is illegal: the cases of 30_encoding.md R65. -/
inductive DecodeError where
  /-- `op` is 0 or in 6..15. -/
  | reservedOp
  /-- `op` is 1, 2, 3 or 5 and `n` is not 0. -/
  | nonzeroN
  /-- `op` is 4 and `n` is in 11..15. -/
  | roundKeyNumber
  deriving DecidableEq, Repr

/-- The name under which an illegal word is rejected (R65). -/
def illegalWord (op : BitVec 4) : DecodeError :=
  if op = 1 ∨ op = 2 ∨ op = 3 ∨ op = 5 then .nonzeroN
  else if op = 4 then .roundKeyNumber
  else .reservedOp

/-- Decoding of a command word with its data operand (30_encoding.md R70, R62). -/
def decode (cmd : BitVec 8) (din : BitVec 128) : Except DecodeError Instr :=
  let op := cmdOp cmd
  let n := cmdN cmd
  if op = 1 ∧ n = 0 then .ok (.kexp (blockOfBus din))
  else if op = 2 ∧ n = 0 then .ok (.enc (blockOfBus din))
  else if op = 3 ∧ n = 0 then .ok (.dec (blockOfBus din))
  else if op = 4 ∧ n ≤ 10 then .ok (.rdrk n)
  else if op = 5 ∧ n = 0 then .ok (.gfmul (busByte din 0) (busByte din 1))
  else .error (illegalWord op)

/-- A command word from its two fields (30_encoding.md R60). -/
def cmdWord (op n : BitVec 4) : BitVec 8 := op ++ n

/-- The command word and data operand of a command (30_encoding.md R64, R68): what a command ignores is written as
zeros. -/
def encode : Instr → BitVec 8 × BitVec 128
  | .kexp key => (cmdWord 1 0, busOfBlock key)
  | .enc block => (cmdWord 2 0, busOfBlock block)
  | .dec block => (cmdWord 3 0, busOfBlock block)
  | .rdrk n => (cmdWord 4 n, 0#128)
  | .gfmul a b => (cmdWord 5 0, busOfBlock (factorBlock a b))

/-- A whole instruction as one number, laid out first byte lowest: the command word in bits 7..0, then byte `k` of
`din` in bits `8*k + 15 .. 8*k + 8` (log 17). -/
def tableCmd (w : Nat) : BitVec 8 := BitVec.ofNat 8 w

/-- The data operand of an instruction laid out as `tableCmd` says. -/
def tableDin (w : Nat) : BitVec 128 :=
  busOfBlock (Vector.ofFn fun k => BitVec.ofNat 8 (w / 256 ^ (k.val + 1)))

/-- What the decoder reads from the instruction whose low `nbits` bits are `w`, every other bit 0. -/
def decodeTableWord (nbits w : Nat) : Option Instr :=
  if 8 ≤ nbits ∧ nbits ≤ 136 then (decode (tableCmd (w % 2 ^ nbits)) (tableDin (w % 2 ^ nbits))).toOption else none

end Sys2Proof
end

