-- ==== Sys2Proof/Config.lean ====
section
/-! DEFINITION. What is fixed for the machine: the constants of 00_scope.md R5, and the values the spec leaves open
(00_scope.md R6, 93_implementation_defined.md U7 to U11) as constants with no body, so that no proof can see them. -/

namespace Sys2Proof.Config

/-- NK: "the key size in words is 4" (R5). No command changes it (90_conflicts.md C3). -/
def NK : Nat := 4

/-- NWORDS: the schedule has 44 words (R5). -/
def NWORDS : Nat := 44

/-- The six latency parameters of 00_scope.md R6 and 70_reset_and_hazards.md R159. -/
inductive Latency where
  | kexp | enc | dec | rdrk | gfmul | err
  deriving DecidableEq, Repr

/-- FREE VALUE (log 5): the latency in clock cycles, less one, of the command accepted at draw `k`. R159: none is
specified, none is promised to be constant from one command to the next. -/
opaque latencyLessOne : Latency → Nat → Nat

/-- `LAT_KEXP`, `LAT_ENC`, `LAT_DEC`, `LAT_RDRK`, `LAT_GFMUL`, `LAT_ERR`: finite and at least 1 (R159). -/
def LAT (l : Latency) (k : Nat) : Nat := latencyLessOne l k + 1

/-- FREE VALUE (log 6): how many steps of the micro-sequence the core does in the clock cycle of draw `k`
(00_scope.md R9: how many cycles a sub-operation takes, and whether several share a cycle, is not specified). -/
opaque stepsInCycle : Nat → Nat

/-- FREE VALUE (log 3): ST where its content is unspecified (10_state.md R23, R34). -/
opaque freeST : Nat → Matrix

/-- FREE VALUE (log 3): WI where its content is unspecified (10_state.md R24, R34). -/
opaque freeWI : Nat → BitVec 6

/-- FREE VALUE (log 3): RND where its content is unspecified (10_state.md R24, R34). -/
opaque freeRND : Nat → BitVec 4

/-- FREE VALUE (log 3): RESP_STATUS where it holds no value (10_state.md R25, R34). -/
opaque freeStatus : Nat → BitVec 2

/-- FREE VALUE (log 3): DOUT where it holds no value (10_state.md R25, R34). -/
opaque freeDout : Nat → Block

end Sys2Proof.Config
end

