-- ==== Sys2Proof/Machine/Gf.lean ====
section
/-! DEFINITION. The Galois-Field Arithmetic unit (40_gf_arithmetic.md R80 to R88): multiplication by one look-up in
GFTAB, doubling, and the round constants. -/

namespace Sys2Proof.Machine

/-- `gfmul(a, b)`: one look-up in GFTAB at linear address `256*a + b` (40_gf_arithmetic.md R81, 20_memory.md R40). -/
def gfmul (a b : Byte) : Byte := GFTAB (a ++ b)

/-- `xtime(a) = gfmul(0x02, a)`, doubling (40_gf_arithmetic.md R82). -/
def xtime (a : Byte) : Byte := gfmul 0x02#8 a

/-- `rcon(i)` for `i` in 1..10: `0x01` doubled `i - 1` times (40_gf_arithmetic.md R83). Outside 1..10 the spec never
evaluates it; the recursion gives `rcon 0 = 0x01` and goes on doubling past 10 (93_implementation_defined.md U15;
log 16). -/
def rcon : Nat → Byte
  | 0 => 0x01#8
  | 1 => 0x01#8
  | i + 2 => gfmul 0x02#8 (rcon (i + 1))

end Sys2Proof.Machine
end

