-- ==== Sys2Proof/Machine/KeySchedule.lean ====
section
/-! DEFINITION. The Key Scheduler as functions of the key (41_key_scheduler.md R90 to R97, R100). -/

namespace Sys2Proof.Machine

/-- RotWord: `(t[1], t[2], t[3], t[0])` (41_key_scheduler.md R91). -/
def rotWord (t : Word) : Word := Vector.ofFn fun k => t.get (k + 1)

/-- SubWord: each byte through SBOX (41_key_scheduler.md R92). -/
def subWord (t : Word) : Word := Vector.ofFn fun k => SBOX (t.get k)

/-- AddRcon: the round constant into byte 0 (41_key_scheduler.md R93). -/
def addRcon (t : Word) (j : Nat) : Word := Vector.ofFn fun k => if k = 0 then t.get k ^^^ rcon j else t.get k

/-- `temp(i)`, where `prev` is `RK[i - 1]` (41_key_scheduler.md R94). The second arm is the dead branch of R97. -/
def temp (i : Nat) (prev : Word) : Word :=
  if i % 4 = 0 then addRcon (subWord (rotWord prev)) (i / 4)
  else if i % Config.NK = 4 then subWord prev
  else prev

/-- Word `i` of the key, `i` in 0..3 (41_key_scheduler.md R96). -/
def keyWord (key : Block) (i : Fin 4) : Word :=
  Vector.ofFn fun k => key.get ⟨4 * i.val + k.val, by omega⟩

/-- The word the recurrence gives from `RK[i - 4]` and `RK[i - 1]` (41_key_scheduler.md R95). -/
def nextWord (i : Nat) (back4 back1 : Word) : Word := Word.xor back4 (temp i back1)

/-- The schedule word that comes after a list of earlier ones, at index `i` (41_key_scheduler.md R95): a word of the
key for `i` in 0..3, then the recurrence. -/
def scheduleWord (key : Block) (i : Nat) (earlier : List Word) : Word :=
  if h : i < 4 then keyWord key ⟨i, h⟩
  else nextWord i (earlier.getD (i - 4) (Vector.replicate 4 0#8)) (earlier.getD (i - 1) (Vector.replicate 4 0#8))

/-- `RK[0..m-1]` in ascending order, each word made from the ones before it (41_key_scheduler.md R95). -/
def scheduleWords (key : Block) : Nat → List Word
  | 0 => []
  | m + 1 => scheduleWords key m ++ [scheduleWord key m (scheduleWords key m)]

/-- Every list of the loop has the length the loop has reached. -/
theorem scheduleWords_length (key : Block) (m : Nat) : (scheduleWords key m).length = m := by
  induction m with
  | zero => rfl
  | succ m ih => simp [scheduleWords, ih]

/-- `expand(key)`: the 44 words (41_key_scheduler.md R95). It is unfolded only where a proof says so. -/
@[irreducible] def expand (key : Block) : Schedule := ⟨(scheduleWords key 44).toArray, by simp [scheduleWords_length]⟩

/-- Four consecutive schedule words, those of one round key (41_key_scheduler.md R100). -/
abbrev RoundWords := Vector Word 4

/-- Words `4n .. 4n+3` of a schedule (41_key_scheduler.md R100). -/
def roundWords (rk : Schedule) (n : Fin 11) : RoundWords :=
  Vector.ofFn fun c => rk.get ⟨4 * n.val + c.val, by omega⟩

/-- The 16 bytes of a round key: byte `r + 4*c` is byte `r` of word `c` (41_key_scheduler.md R100). -/
def roundBytes (k : RoundWords) : Block :=
  Vector.ofFn fun i => (k.get ⟨i.val / 4, by omega⟩).get ⟨i.val % 4, by omega⟩

/-- `roundkey(n)` (41_key_scheduler.md R100). -/
def roundkey (rk : Schedule) (n : Fin 11) : Block := roundBytes (roundWords rk n)

end Sys2Proof.Machine
end

