-- ==== Sys2Proof/Machine/State.lean ====
section
/-! DEFINITION. The state of the block (10_state.md R20 to R25), what the host puts on the input pins
(30_encoding.md R71, R74), and the state after reset (10_state.md R34). -/

namespace Sys2Proof.Machine

/-- The two faults a command can end with (60_exceptions.md R130 to R132). They are responses, not stops. -/
inductive CommandFault where
  /-- IllegalCommand (60_exceptions.md R131). -/
  | illegalCommand
  /-- NoKey (60_exceptions.md R132). -/
  | noKey
  deriving DecidableEq, Repr

/-- PH: which command is in progress (10_state.md R24). The last three carry the operand sampled at acceptance, which
has no register of its own in R20 (30_encoding.md R62, R72; DEDUCED, log 7). -/
inductive Phase where
  | idle
  | kexp
  | enc
  | dec
  | rdrk (n : BitVec 4)
  | gfmul (a b : Byte)
  | err (f : CommandFault)
  deriving DecidableEq, Repr

/-- The values on the input pins at one rising edge of `clk` (30_encoding.md R71). -/
structure Pins where
  rst : Bool
  cmdValid : Bool
  cmd : BitVec 8
  din : BitVec 128
  deriving DecidableEq, Repr

/-- One move of the host (00_scope.md R10; log 8). -/
inductive HostEvent where
  /-- One rising edge of `clk` with these values on the input pins. -/
  | edge (p : Pins)
  /-- A command held presented until it is accepted, then left to run to its response (30_encoding.md R72, R74). -/
  | command (cmd : BitVec 8) (din : BitVec 128)
  deriving DecidableEq, Repr

/-- The state of the block, and the fields the model needs to run it. -/
structure State where
  /-- RK: the cells of the round-key memory that hold a value. Byte `k` of word `i` is the cell at `4*i + k`
  (10_state.md R21; log 1, log 14). -/
  rk : List Host.Cell
  /-- KV, the key-valid flag (10_state.md R22). -/
  kv : Bool
  /-- ST, the cipher state (10_state.md R23). -/
  st : Matrix
  /-- PH, the command in progress (10_state.md R24). -/
  ph : Phase
  /-- WI, the index of the schedule word being produced (10_state.md R24). -/
  wi : BitVec 6
  /-- RND, the round number (10_state.md R24). -/
  rnd : BitVec 4
  /-- RESP_STATUS (10_state.md R25). -/
  respStatus : BitVec 2
  /-- DOUT (10_state.md R25). -/
  dout : Block
  /-- RESP_VALID (10_state.md R25). -/
  respValid : Bool
  /-- The model's own: the host's coming moves, the next one first (log 8). -/
  host : List HostEvent
  /-- The model's own: clock edges still to pass, after the coming one, before the response opens (log 5). -/
  latLeft : Nat
  /-- The model's own: how many free values have been drawn (log 4). -/
  draws : Nat
  deriving DecidableEq, Repr

/-- Why the machine stops. Each arises only in states that no run from reset reaches (10_state.md R35: "A model that
finds itself reading one of them outside these guards has departed from the spec and should fault"). All are safe. -/
inductive Fault where
  /-- A word of RK that holds no value was read; raised by ENC, DEC and RDRK, and by a clock edge of
  these or of KEXP. Safe (log 1). -/
  | rkNoValue
  /-- A word index outside 0..43 was used (20_memory.md R51); raised by an RDRK in progress whose round-key number is
  over 10. Safe (log 15). -/
  | rkIndex
  /-- WI or RND is outside its values in use (10_state.md R24) while the command that uses it runs; raised by a clock
  edge. Safe (log 15). -/
  | sequencerRange
  deriving DecidableEq, Repr

/-- Why the model gives an instruction no meaning. -/
inductive Refusal where
  /-- The instruction has no meaning in the model; raised by an arm of exec. Safe: nothing follows. No arm does. -/
  | notModelled (mnemonic : String)
  deriving DecidableEq, Repr

/-- The state after reset: KV 0, PH IDLE, RESP_VALID 0 and RK with no value (10_state.md R34). ST, WI, RND,
RESP_STATUS and DOUT, which R34 leaves unspecified, hold zeros (DESIGN CHOICE, unsafe, log 2); the host has made no
move (log 8); nothing has been drawn (log 4). -/
def State.reset : State where
  rk := []
  kv := false
  st := Matrix.zero
  ph := .idle
  wi := 0
  rnd := 0
  respStatus := 0
  dout := Block.zero
  respValid := false
  host := []
  latLeft := 0
  draws := 0

end Sys2Proof.Machine
end

