-- ==== Sys2Proof/Machine/Ops.lean ====
section
/-! DEFINITION. The shared operations: the round-key memory by byte and by word, giving a response, raising a fault,
ending a response, and reset. -/

namespace Sys2Proof.Machine

/-! ### The round-key memory (20_memory.md R40, R47 to R51, R53) -/

/-- The first address past RK: 44 words of 4 bytes, 176 bytes (10_state.md R21). -/
def rkBytes : Nat := 176

/-- What the cell at an address holds. An unlisted address holds no value (10_state.md R34, 20_memory.md R53; log 1). -/
def readCell : List Host.Cell → Nat → Option Byte
  | [], _ => none
  | (a, b) :: m, x => if a = x then some b else readCell m x

/-- Writes one cell, keeping the addresses strictly rising. -/
def writeCell : List Host.Cell → Nat → Byte → List Host.Cell
  | [], x, v => [(x, v)]
  | (a, b) :: m, x, v =>
    if x < a then (x, v) :: (a, b) :: m
    else if x = a then (x, v) :: m
    else (a, b) :: writeCell m x v

/-- Every address of the list is above `lo`, and they rise strictly. -/
def risesFrom : Nat → List Host.Cell → Bool
  | _, [] => true
  | lo, (a, _) :: m => decide (lo < a) && risesFrom a m

/-- The canonical form of a memory: addresses strictly rising and inside RK. No listed cell equals what an unlisted
one reads as, since an unlisted one has no value. -/
def Memory.wf : List Host.Cell → Bool
  | [] => true
  | (a, b) :: m => risesFrom a m && ((a, b) :: m).all fun c => decide (c.1 < rkBytes)

/-- Word `i` of RK, as one access (20_memory.md R50). -/
def readWord (m : List Host.Cell) (i : Nat) : Except Fault Word :=
  if i < Config.NWORDS then
    match readCell m (4 * i), readCell m (4 * i + 1), readCell m (4 * i + 2), readCell m (4 * i + 3) with
    | some b0, some b1, some b2, some b3 => .ok ⟨#[b0, b1, b2, b3], rfl⟩
    | _, _, _, _ => .error .rkNoValue
  else .error .rkIndex

/-- The cells of word `i` written with `w`. -/
def putWord (m : List Host.Cell) (i : Nat) (w : Word) : List Host.Cell :=
  writeCell (writeCell (writeCell (writeCell m (4 * i) (w.get 0)) (4 * i + 1) (w.get 1)) (4 * i + 2) (w.get 2))
    (4 * i + 3) (w.get 3)

/-- `RK[i] <- w`, as one access (20_memory.md R50, R51). -/
def writeWord (m : List Host.Cell) (i : Nat) (w : Word) : Except Fault (List Host.Cell) :=
  if i < Config.NWORDS then .ok (putWord m i w) else .error .rkIndex

/-- `RK[i], RK[i+1], ...` written with a list of words in ascending order (20_memory.md R58). -/
def putWords (m : List Host.Cell) : Nat → List Word → List Host.Cell
  | _, [] => m
  | i, w :: ws => putWords (putWord m i w) (i + 1) ws

/-- An RK that holds exactly a schedule. It is unfolded only where a proof says so. -/
@[irreducible] def scheduleMemory (rk : Schedule) : List Host.Cell := putWords [] 0 rk.toList

/-- The four words of round key `n` (20_memory.md R50). -/
def readRound (m : List Host.Cell) (n : Nat) : Except Fault RoundWords := do
  let w0 ← readWord m (4 * n)
  let w1 ← readWord m (4 * n + 1)
  let w2 ← readWord m (4 * n + 2)
  let w3 ← readWord m (4 * n + 3)
  pure ⟨#[w0, w1, w2, w3], rfl⟩

/-- The words `i, i+1, ...`, `k` of them. -/
def readWords (m : List Host.Cell) : (i k : Nat) → Except Fault (Vector Word k)
  | _, 0 => .ok #v[]
  | i, k + 1 => do
    let ws ← readWords m i k
    let w ← readWord m (i + k)
    pure (ws.push w)

/-- The whole schedule RK holds. It is unfolded only where a proof says so. -/
@[irreducible] def readSchedule (m : List Host.Cell) : Except Fault Schedule := readWords m 0 44

/-! ### Responses and faults -/

/-- The status codes of 60_exceptions.md R130. -/
inductive Status where
  | ok
  | errIllegal
  | errNoKey
  deriving DecidableEq, Repr

/-- The 2-bit code of a status (60_exceptions.md R130); 3 is never produced. -/
def statusCode : Status → BitVec 2
  | .ok => 0
  | .errIllegal => 1
  | .errNoKey => 2

/-- The status of a fault (60_exceptions.md R130). -/
def faultStatus : CommandFault → Status
  | .illegalCommand => .errIllegal
  | .noKey => .errNoKey

/-- `respond(status, data)`: the response cycle of the command named by PH (30_encoding.md R73). PH returns to IDLE at
the end of this cycle, not in it (log 18). -/
def respond (ph : Phase) (status : Status) (data : Block) (s : State) : State :=
  { s with ph := ph, respValid := true, respStatus := statusCode status, dout := data }

/-- `raise <Fault>`: the command's one response carries the fault's code and 16 zero bytes, and nothing else changes
(60_exceptions.md R140). -/
def raiseFault (f : CommandFault) (s : State) : State := respond (.err f) (faultStatus f) Block.zero s

/-- The fault a command raises once accepted, if any: IllegalCommand for a round-key number over 10, decided before KV is
looked at, then NoKey for ENC, DEC and RDRK when KV is 0 (60_exceptions.md R131, R132, R139). -/
def commandFault (i : Instr) (s : State) : Option CommandFault :=
  match i with
  | .kexp _ => none
  | .enc _ => if s.kv then none else some .noKey
  | .dec _ => if s.kv then none else some .noKey
  | .rdrk n => if legalRoundKey n then (if s.kv then none else some .noKey) else some .illegalCommand
  | .gfmul _ _ => none

/-- An operation that can stop, as an outcome of a step. -/
def toOutcome : Except Fault State → Host.Outcome State Fault Refusal
  | .ok s => .next s
  | .error f => .fault f

/-- RESP_VALID falls, and RESP_STATUS and DOUT hold no value: they are free (10_state.md R25; log 3). -/
def clearResponse (s : State) : State :=
  { s with respValid := false, respStatus := Config.freeStatus s.draws, dout := Config.freeDout s.draws,
           draws := s.draws + 1 }

/-- ST, WI and RND are left unspecified: they are free (10_state.md R23, R24; log 3). -/
def releaseSequencer (s : State) : State :=
  { s with st := Config.freeST s.draws, wi := Config.freeWI s.draws, rnd := Config.freeRND s.draws,
           draws := s.draws + 1 }

/-- The end of the response cycle: PH returns to IDLE (30_encoding.md R73). -/
def endResponse (s : State) : State := { clearResponse (releaseSequencer s) with ph := .idle }

/-- A clock edge with `rst` = 1 (70_reset_and_hazards.md R151, R152): KV 0, PH IDLE, RESP_VALID 0; RK holds no value
(log 10); ST, WI, RND, RESP_STATUS and DOUT are free (log 3). -/
def resetEdge (s : State) : State :=
  { clearResponse (releaseSequencer s) with kv := false, ph := .idle, rk := [] }

/-- The response as the host sees it: status and data bytes, or none in a cycle without one (10_state.md R25). -/
def response (s : State) : Option (BitVec 2 × Block) := if s.respValid then some (s.respStatus, s.dout) else none

end Sys2Proof.Machine
end

