-- ==== Sys2Proof/Machine/Flags.lean ====
section
/-! DEFINITION. The two one-bit conditions of the block, KV and ready (10_state.md R28), and the output pins
(10_state.md R29, 30_encoding.md R71). No command sets a flag from its data (R28). -/

namespace Sys2Proof.Machine

/-- `cmd_ready`: PH is IDLE (10_state.md R28, R29). -/
def cmdReady (s : State) : Bool := decide (s.ph = .idle)

/-- `key_valid`: KV (10_state.md R22). -/
def keyValid (s : State) : Bool := s.kv

/-- KV cleared: reset and the acceptance of KEXP (10_state.md R22). -/
def clearKV (s : State) : State := { s with kv := false }

/-- KV set: the completion of KEXP (10_state.md R22). -/
def setKV (s : State) : State := { s with kv := true }

/-- The output pins in one cycle. `resp_status` and `dout` have no value when `resp_valid` is 0 (30_encoding.md R71). -/
structure OutPins where
  cmdReady : Bool
  keyValid : Bool
  respValid : Bool
  respStatus : Option (BitVec 2)
  dout : Option (BitVec 128)
  deriving DecidableEq, Repr

/-- What the output pins show (10_state.md R29). -/
def outPins (s : State) : OutPins where
  cmdReady := cmdReady s
  keyValid := keyValid s
  respValid := s.respValid
  respStatus := (response s).map (·.1)
  dout := (response s).map fun r => busOfBlock r.2

end Sys2Proof.Machine
end

