-- ==== Sys2Proof/Machine/RoundEngine.lean ====
section
/-! DEFINITION. The Round-Transform Engine as functions of the block and the schedule (42_round_engine.md R105 to R116,
R119 to R121). -/

namespace Sys2Proof.Machine

/-- Load: `S[r][c] = block[r + 4*c]` (42_round_engine.md R105). -/
def load (block : Block) : Matrix := Matrix.ofFn fun r c => block.get ⟨r.val + 4 * c.val, by omega⟩

/-- Store: `out[r + 4*c] = S[r][c]` (42_round_engine.md R106). -/
def store (s : Matrix) : Block :=
  Vector.ofFn fun i => s.at ⟨i.val % 4, by omega⟩ ⟨i.val / 4, by omega⟩

/-- AddRoundKey: column `c` meets word `c` of the round key, row `r` its byte `r` (42_round_engine.md R107). -/
def addRoundKey (k : RoundWords) (s : Matrix) : Matrix := Matrix.ofFn fun r c => s.at r c ^^^ (k.get c).get r

/-- SubBytes (42_round_engine.md R108). -/
def subBytes (s : Matrix) : Matrix := Matrix.ofFn fun r c => SBOX (s.at r c)

/-- InvSubBytes (42_round_engine.md R109). -/
def invSubBytes (s : Matrix) : Matrix := Matrix.ofFn fun r c => INV_SBOX (s.at r c)

/-- ShiftRows: `S'[r][c] = S[r][(c + r) mod 4]` (42_round_engine.md R110); the sum of two `Fin 4` is modulo 4. -/
def shiftRows (s : Matrix) : Matrix := Matrix.ofFn fun r c => s.at r (c + r)

/-- InvShiftRows: `S'[r][c] = S[r][(c - r) mod 4]` (42_round_engine.md R111); the difference of two `Fin 4` is the
remainder in 0..3. -/
def invShiftRows (s : Matrix) : Matrix := Matrix.ofFn fun r c => s.at r (c - r)

/-- `mixcol(q, a)[k]`: coefficient `j` meets column byte `(k - j) mod 4` (42_round_engine.md R112). -/
def mixcolByte (q a : Word) (k : Fin 4) : Byte :=
  gfmul (q.get 0) (a.get k) ^^^ gfmul (q.get 1) (a.get (k - 1)) ^^^ gfmul (q.get 2) (a.get (k - 2)) ^^^
    gfmul (q.get 3) (a.get (k - 3))

/-- `mixcol(q, a)` (42_round_engine.md R112). -/
def mixcol (q a : Word) : Word := Vector.ofFn fun k => mixcolByte q a k

/-- Column `c` of the state. -/
def column (s : Matrix) (c : Fin 4) : Word := Vector.ofFn fun r => s.at r c

/-- Each column replaced by `mixcol(q, column)` (42_round_engine.md R113, R114). -/
def mixWith (q : Word) (s : Matrix) : Matrix := Matrix.ofFn fun r c => mixcolByte q (column s c) r

/-- The coefficients `{02,01,01,03}` (42_round_engine.md R113). -/
def mixCoefficients : Word := ⟨#[0x02, 0x01, 0x01, 0x03], rfl⟩

/-- The coefficients `{0e,09,0d,0b}` (42_round_engine.md R114). -/
def invMixCoefficients : Word := ⟨#[0x0e, 0x09, 0x0d, 0x0b], rfl⟩

/-- MixColumns (42_round_engine.md R113). -/
def mixColumns (s : Matrix) : Matrix := mixWith mixCoefficients s

/-- InvMixColumns (42_round_engine.md R114). -/
def invMixColumns (s : Matrix) : Matrix := mixWith invMixCoefficients s

/-- What ENC does to the state at `RND = r`, `k` being round key `r`: AddRoundKey alone at 0, all four
sub-operations at 1..9, and no MixColumns at 10 (42_round_engine.md R115, R119). -/
def encRound (r : Nat) (k : RoundWords) (s : Matrix) : Matrix :=
  if r = 0 then addRoundKey k s
  else if r = 10 then addRoundKey k (shiftRows (subBytes s))
  else addRoundKey k (mixColumns (shiftRows (subBytes s)))

/-- What DEC does to the state at `RND = r`, `k` being round key `r`: AddRoundKey alone at 10, all four
sub-operations at 9..1, and no InvMixColumns at 0 (42_round_engine.md R116, R120). -/
def decRound (r : Nat) (k : RoundWords) (s : Matrix) : Matrix :=
  if r = 10 then addRoundKey k s
  else if r = 0 then addRoundKey k (invSubBytes (invShiftRows s))
  else invMixColumns (addRoundKey k (invSubBytes (invShiftRows s)))

/-- The round numbers of ENC in order: 0, 1, ..., 10 (42_round_engine.md R115). -/
def encOrder : List (Fin 11) := [0, 1, 2, 3, 4, 5, 6, 7, 8, 9, 10]

/-- The round numbers of DEC in order: 10, 9, ..., 0 (42_round_engine.md R116; 90_conflicts.md C4). -/
def decOrder : List (Fin 11) := [10, 9, 8, 7, 6, 5, 4, 3, 2, 1, 0]

/-- The state before Store in ENC (42_round_engine.md R115). -/
def cipherState (rk : Schedule) (block : Block) : Matrix :=
  encOrder.foldl (fun s n => encRound n.val (roundWords rk n) s) (load block)

/-- The state before Store in DEC (42_round_engine.md R116). -/
def invcipherState (rk : Schedule) (block : Block) : Matrix :=
  decOrder.foldl (fun s n => decRound n.val (roundWords rk n) s) (load block)

/-- `cipher(block)` under a schedule (42_round_engine.md R115). -/
def cipher (rk : Schedule) (block : Block) : Block := store (cipherState rk block)

/-- `invcipher(block)` under a schedule (42_round_engine.md R116). -/
def invcipher (rk : Schedule) (block : Block) : Block := store (invcipherState rk block)

end Sys2Proof.Machine
end

