-- ==== Sys2Proof/Machine/Clock.lean ====
section
/-! DEFINITION. The block at its pins: acceptance, the micro-sequences under PH, WI and RND, the response and reset, one
rising clock edge at a time (10_state.md R24, R27; 30_encoding.md R71 to R73; 41_key_scheduler.md R99;
42_round_engine.md R119, R120; 70_reset_and_hazards.md R150 to R152, R157, R159). -/

namespace Sys2Proof.Machine

/-! ### The micro-sequences

One step of a micro-sequence is one value of WI (one schedule word) or one value of RND (the sub-operations of one
round): (PH, WI, RND) says which comes next (10_state.md R27), and WI and RND name what is next, not what is done
(log 6). -/

/-- The next step is the last one of the command: WI stops at 43, RND at 10 in ENC and at 0 in DEC (10_state.md R27). -/
def atLastStep (s : State) : Bool :=
  match s.ph with
  | .kexp => decide (s.wi = 43)
  | .enc => decide (s.rnd = 10)
  | .dec => decide (s.rnd = 0)
  | .idle | .rdrk _ | .gfmul _ _ | .err _ => true

/-- RK after the schedule word at index WI is produced (41_key_scheduler.md R95, R99; 20_memory.md R58). -/
def produceWord (s : State) : Except Fault (List Host.Cell) :=
  if 4 ≤ s.wi.toNat ∧ s.wi.toNat ≤ 43 then do
    let back4 ← readWord s.rk (s.wi.toNat - 4)
    let back1 ← readWord s.rk (s.wi.toNat - 1)
    writeWord s.rk s.wi.toNat (nextWord s.wi.toNat back4 back1)
  else .error .sequencerRange

/-- ST after the round RND of a transform, `round` being `encRound` or `decRound`. -/
def transformRound (round : Nat → RoundWords → Matrix → Matrix) (s : State) : Except Fault Matrix :=
  if s.rnd.toNat ≤ 10 then do
    let k ← readRound s.rk s.rnd.toNat
    pure (round s.rnd.toNat k s.st)
  else .error .sequencerRange

/-- A step that is not the command's last (41_key_scheduler.md R99; 42_round_engine.md R119, R120). -/
def microStep (s : State) : Except Fault State :=
  match s.ph with
  | .kexp => do
    let rk ← produceWord s
    pure { s with rk := rk, wi := s.wi + 1 }
  | .enc => do
    let st ← transformRound encRound s
    pure { s with st := st, rnd := s.rnd + 1 }
  | .dec => do
    let st ← transformRound decRound s
    pure { s with st := st, rnd := s.rnd - 1 }
  | .idle | .rdrk _ | .gfmul _ _ | .err _ => .ok s

/-- The command's last step and its response (30_encoding.md R73). -/
def lastStep (s : State) : Except Fault State :=
  match s.ph with
  | .idle => .ok s
  | .kexp => do
    let rk ← produceWord s
    pure (respond .kexp .ok Block.zero (setKV { s with rk := rk }))
  | .enc => do
    let st ← transformRound encRound s
    pure (respond .enc .ok (store st) { s with st := st })
  | .dec => do
    let st ← transformRound decRound s
    pure (respond .dec .ok (store st) { s with st := st })
  | .rdrk n => do
    let k ← readRound s.rk n.toNat
    pure (respond (.rdrk n) .ok (roundBytes k) s)
  | .gfmul a b => .ok (respond (.gfmul a b) .ok (productBlock (gfmul a b)) s)
  | .err f => .ok (raiseFault f s)

/-- At most `k` steps, none of them the last. -/
def advance : Nat → State → Except Fault State
  | 0, s => .ok s
  | k + 1, s => if atLastStep s then .ok s else do advance k (← microStep s)

/-- All the steps still to do: no command has more than 40 (41_key_scheduler.md R99; 42_round_engine.md R119, R120). -/
def finish (s : State) : Except Fault State := do lastStep (← advance 40 s)

/-! ### Acceptance (30_encoding.md R72) -/

/-- RK at the acceptance of KEXP: the four words of the key in entries 0..3 and no value in the others
(41_key_scheduler.md R96, R99; log 9). It is unfolded only where a proof says so. -/
@[irreducible] def keyMemory (key : Block) : List Host.Cell :=
  putWords [] 0 [keyWord key 0, keyWord key 1, keyWord key 2, keyWord key 3]

/-- A legal command takes its operand and its PH (10_state.md R23, R24; 41_key_scheduler.md R98; 42_round_engine.md R117,
R118; 60_exceptions.md R132). KEXP clears KV, and RK holds no value but the four words of the key (R96; log 9). -/
def begin (i : Instr) (s : State) : State :=
  match commandFault i s with
  | some f => { s with ph := .err f }
  | none =>
    match i with
    | .kexp key =>
      clearKV { s with ph := .kexp, rk := keyMemory key, wi := 4 }
    | .enc block => { s with ph := .enc, st := load block, rnd := 0 }
    | .dec block => { s with ph := .dec, st := load block, rnd := 10 }
    | .rdrk n => { s with ph := .rdrk n }
    | .gfmul a b => { s with ph := .gfmul a b }

/-- An accepted word: the command it decodes to, or IllegalCommand (30_encoding.md R70; 60_exceptions.md R131). -/
def beginWord (cmd : BitVec 8) (din : BitVec 128) (s : State) : State :=
  match decode cmd din with
  | .ok i => begin i s
  | .error _ => { s with ph := .err .illegalCommand }

/-- The latency parameter of the command in progress (30_encoding.md R73). -/
def latencyOf : Phase → Config.Latency
  | .kexp => .kexp
  | .enc => .enc
  | .dec => .dec
  | .rdrk _ => .rdrk
  | .gfmul _ _ => .gfmul
  | .err _ => .err
  | .idle => .err

/-- Acceptance: `cmd` and `din` are sampled, PH leaves IDLE, and a latency is drawn (30_encoding.md R72, R73; log 5). -/
def accept (cmd : BitVec 8) (din : BitVec 128) (s : State) : State :=
  { beginWord cmd din s with
    respValid := false
    latLeft := Config.latencyLessOne (latencyOf (beginWord cmd din s).ph) s.draws
    draws := s.draws + 1 }

/-! ### One rising edge -/

/-- The edge at which a command in progress works. With no edge left it finishes and the response opens; otherwise it
does a free number of steps (log 5, log 6). -/
def workEdge (s : State) : Except Fault State :=
  if s.latLeft = 0 then finish s
  else do
    let s' ← advance (Config.stepsInCycle s.draws) s
    pure { s' with latLeft := s.latLeft - 1, draws := s.draws + 1 }

/-- One rising edge of `clk` (30_encoding.md R71). Reset has priority over everything (60_exceptions.md R139); a command
is accepted when PH is IDLE and `cmd_valid` is 1 (30_encoding.md R72); while PH is not IDLE what is presented has no
effect (R72, 70_reset_and_hazards.md R157), and a response lasts one cycle (R73). -/
def clockEdge (p : Pins) (s : State) : Except Fault State :=
  if p.rst then .ok (resetEdge s)
  else if s.ph = .idle then
    if p.cmdValid then workEdge (accept p.cmd p.din s) else .ok { s with respValid := false }
  else if s.respValid then .ok (endResponse s)
  else workEdge s

/-- The pins when the host presents nothing (30_encoding.md R66). -/
def quietPins : Pins := { rst := false, cmdValid := false, cmd := 0, din := 0 }

/-- The pins when the host presents a command (30_encoding.md R72). -/
def presentPins (cmd : BitVec 8) (din : BitVec 128) : Pins := { rst := false, cmdValid := true, cmd := cmd, din := din }

/-- The pins when the host asserts reset (70_reset_and_hazards.md R150). -/
def resetPins : Pins := { rst := true, cmdValid := false, cmd := 0, din := 0 }

/-- The host's move RESET: `rst` for one clock edge (30_encoding.md R68). -/
def resetMove : HostEvent := .edge resetPins

end Sys2Proof.Machine
end

