-- ==== Sys2Proof/Machine/CipherCommands.lean ====
section
/-! DEFINITION. ENC and DEC from acceptance to response (42_round_engine.md R117, R118). -/

namespace Sys2Proof.Machine

/-- ENC: the cipher of the block under the schedule in RK; ST and RND are left as the last round leaves them
(42_round_engine.md R117, R119); NoKey when KV is 0 (60_exceptions.md R132). -/
def execEnc (block : Block) (s : State) : Host.Outcome State Fault Refusal :=
  match commandFault (.enc block) s with
  | some f => .next (raiseFault f s)
  | none =>
    match readSchedule s.rk with
    | .ok rk => .next (respond .enc .ok (cipher rk block) { s with st := cipherState rk block, rnd := 10 })
    | .error f => .fault f

/-- DEC: the inverse cipher of the block under the schedule in RK; ST and RND are left as the last round leaves them
(42_round_engine.md R118, R120); NoKey when KV is 0 (60_exceptions.md R132). -/
def execDec (block : Block) (s : State) : Host.Outcome State Fault Refusal :=
  match commandFault (.dec block) s with
  | some f => .next (raiseFault f s)
  | none =>
    match readSchedule s.rk with
    | .ok rk => .next (respond .dec .ok (invcipher rk block) { s with st := invcipherState rk block, rnd := 0 })
    | .error f => .fault f

end Sys2Proof.Machine
end

