-- ==== Sys2Proof/Machine/GfCommands.lean ====
section
/-! DEFINITION. GFMUL from acceptance to response (40_gf_arithmetic.md R86). -/

namespace Sys2Proof.Machine

/-- GFMUL: the product in byte 0, zeros in bytes 1..15, with or without a key (40_gf_arithmetic.md R86). -/
def execGfmul (a b : Byte) (s : State) : Host.Outcome State Fault Refusal :=
  .next (respond (.gfmul a b) .ok (productBlock (gfmul a b)) s)

end Sys2Proof.Machine
end

