-- ==== Sys2Proof/Machine/KeyCommands.lean ====
section
/-! DEFINITION. KEXP and RDRK from acceptance to response (41_key_scheduler.md R98, R101). -/

namespace Sys2Proof.Machine

/-- KEXP: RK becomes the schedule of the key, whatever it held; WI stops at 43; KV, cleared at acceptance, is set at
completion; the response is OK with 16 zero bytes (41_key_scheduler.md R98, R99; 20_memory.md R58). -/
def execKexp (key : Block) (s : State) : Host.Outcome State Fault Refusal :=
  .next (respond .kexp .ok Block.zero (setKV { s with rk := scheduleMemory (expand key), wi := 43 }))

/-- RDRK: round key `n` as 16 bytes (41_key_scheduler.md R101); NoKey when KV is 0 (60_exceptions.md R132). -/
def execRdrk (n : BitVec 4) (s : State) : Host.Outcome State Fault Refusal :=
  match commandFault (.rdrk n) s with
  | some f => .next (raiseFault f s)
  | none =>
    match readRound s.rk n.toNat with
    | .ok k => .next (respond (.rdrk n) .ok (roundBytes k) s)
    | .error f => .fault f

end Sys2Proof.Machine
end

