-- ==== Sys2Proof/Machine/Dispatch.lean ====
section
/-! DEFINITION. Which meaning each command has: one arm per row of the opcode table. -/

namespace Sys2Proof.Machine

/-- What an accepted command does, from acceptance to its response (30_encoding.md R74). -/
def exec (i : Instr) (s : State) : Host.Outcome State Fault Refusal :=
  match i with
  | .kexp key => Sys2Proof.Machine.execKexp key s
  | .enc block => Sys2Proof.Machine.execEnc block s
  | .dec block => Sys2Proof.Machine.execDec block s
  | .rdrk n => Sys2Proof.Machine.execRdrk n s
  | .gfmul a b => Sys2Proof.Machine.execGfmul a b s

end Sys2Proof.Machine
end

