-- ==== Sys2Proof/Machine/Run.lean ====
section
/-! DEFINITION. The next move of the host carried out (00_scope.md R10; 30_encoding.md R72, R74; log 8). -/

namespace Sys2Proof.Machine

/-- A command word run from acceptance to response: its meaning, or IllegalCommand (30_encoding.md R74;
60_exceptions.md R131). -/
def runWord (cmd : BitVec 8) (din : BitVec 128) (s : State) : Host.Outcome State Fault Refusal :=
  match decode cmd din with
  | .ok i => exec i s
  | .error _ => .next (raiseFault .illegalCommand s)

/-- The host's next move. With no move left the host presents nothing. A command presented while PH is not IDLE stays
presented for one edge (30_encoding.md R72); while PH is IDLE it is accepted and runs to its response. -/
def runHost (s : State) : Host.Outcome State Fault Refusal :=
  match s.host with
  | [] => toOutcome (clockEdge quietPins s)
  | .edge p :: rest => toOutcome (clockEdge p { s with host := rest })
  | .command cmd din :: rest =>
    if s.ph = .idle then runWord cmd din { s with host := rest } else toOutcome (clockEdge (presentPins cmd din) s)

end Sys2Proof.Machine
end

