-- ==== Sys2Proof/Machine/Step.lean ====
section
/-! DEFINITION. One step of the machine, and the state in which the next step runs a given instruction. -/

namespace Sys2Proof.Machine

/-- One step: the host's next move. -/
def step (s : State) : Host.Outcome State Fault Refusal := runHost s

/-- The state with the instruction of `w` as the host's next move, and PH IDLE, without which no command is accepted
(30_encoding.md R72; log 8, log 17). -/
def State.withFetchWord (s : State) (nbits w : Nat) : State :=
  { s with ph := .idle, host := .command (tableCmd (w % 2 ^ nbits)) (tableDin (w % 2 ^ nbits)) :: s.host }

end Sys2Proof.Machine
end

