-- ==== Sys2Proof/Safety.lean ====
section
/-! DEFINITION. What a sound state of the block is, and when two states agree on everything the spec gives the
machine. -/

namespace Sys2Proof.Machine

/-- "Whenever KV is 1, `RK = expand(key)`" for some key (10_state.md R21). -/
def KeyInv (s : State) : Prop := s.kv = true → ∃ key, s.rk = scheduleMemory (expand key)

/-- What PH says of the other registers: no response while IDLE (30_encoding.md R73); while KEXP runs KV is 0
(10_state.md R22), WI is in 4..43 (R24) and RK holds the words below WI and nothing else (20_memory.md R58); ENC, DEC
and RDRK run only with KV 1 (60_exceptions.md R132), RND in 0..10 (10_state.md R24) and a legal round-key number
(30_encoding.md R65); NoKey is raised only with KV 0. -/
def PhaseInv (s : State) : Prop :=
  match s.ph with
  | .idle => s.respValid = false
  | .kexp =>
    if s.respValid then s.kv = true
    else s.kv = false ∧ 4 ≤ s.wi.toNat ∧ s.wi.toNat ≤ 43 ∧
      ∃ key, s.rk = putWords [] 0 (scheduleWords key s.wi.toNat)
  | .enc => s.kv = true ∧ s.rnd.toNat ≤ 10
  | .dec => s.kv = true ∧ s.rnd.toNat ≤ 10
  | .rdrk n => s.kv = true ∧ legalRoundKey n = true
  | .gfmul _ _ => True
  | .err f => f = .noKey → s.kv = false

/-- A response carries status 0, 1 or 2, and zeros unless it is OK (60_exceptions.md R130, 30_encoding.md R63). -/
def ResponseInv (s : State) : Prop :=
  s.respValid = true → s.respStatus = 0 ∨ ((s.respStatus = 1 ∨ s.respStatus = 2) ∧ s.dout = Block.zero)

/-- A sound state: RK in its canonical form, and the three relations above. -/
def Sound (s : State) : Prop := Memory.wf s.rk = true ∧ KeyInv s ∧ PhaseInv s ∧ ResponseInv s

/-- Agreement on every register and memory of 10_state.md R20, the model's own fields left out. -/
def SameArch (s t : State) : Prop :=
  s.rk = t.rk ∧ s.kv = t.kv ∧ s.st = t.st ∧ s.ph = t.ph ∧ s.wi = t.wi ∧ s.rnd = t.rnd ∧
    s.respStatus = t.respStatus ∧ s.dout = t.dout ∧ s.respValid = t.respValid

/-- The host's next move is a clock edge with `rst` = 1. -/
def ResetMove (s : State) : Prop := ∃ p rest, s.host = .edge p :: rest ∧ p.rst = true

/-- The host's next move presents a command word, at an edge without reset or until it is accepted. -/
def Presents (s : State) (cmd : BitVec 8) : Prop :=
  (∃ p rest, s.host = .edge p :: rest ∧ p.rst = false ∧ p.cmdValid = true ∧ p.cmd = cmd) ∨
    ∃ din rest, s.host = .command cmd din :: rest

end Sys2Proof.Machine
end

