-- ==== Sys2Proof/Certificates/Slice0/Obligations.lean ====
section
/-! DEFINITION. The statements for the provers, in the order of OBLIGATIONS.json. Each docstring names the rule of spec/
it formalises. -/

open Sys2Proof Sys2Proof.Machine

/-! ### Encoding and decoding -/

/-- Every well-formed command decodes from its encoding, operands included (30_encoding.md R60, R62, R64, R70). -/
def Obligations.DecodeOfEncode : Prop :=
  ∀ i : Instr, i.wf = true → decode (encode i).1 (encode i).2 = .ok i

/-- What decodes is well formed, and its encoding is the word it was read from, with every byte of `din` the command
uses (30_encoding.md R62, R64, R70). -/
def Obligations.EncodeOfDecode : Prop :=
  ∀ cmd din i, decode cmd din = .ok i →
    i.wf = true ∧ (encode i).1 = cmd ∧
    (((∃ k, i = .kexp k) ∨ (∃ b, i = .enc b) ∨ ∃ b, i = .dec b) → (encode i).2 = din) ∧
    (∀ a b, i = .gfmul a b → busByte (encode i).2 0 = busByte din 0 ∧ busByte (encode i).2 1 = busByte din 1)

/-- The decoding algorithm of 30_encoding.md R70, the fields written as quotient and remainder by 16. -/
def Obligations.DecodingAlgorithm : Prop :=
  ∀ (cmd : BitVec 8) (din : BitVec 128),
    (cmd.toNat / 16 = 1 ∧ cmd.toNat % 16 = 0 → decode cmd din = .ok (.kexp (blockOfBus din))) ∧
    (cmd.toNat / 16 = 2 ∧ cmd.toNat % 16 = 0 → decode cmd din = .ok (.enc (blockOfBus din))) ∧
    (cmd.toNat / 16 = 3 ∧ cmd.toNat % 16 = 0 → decode cmd din = .ok (.dec (blockOfBus din))) ∧
    (cmd.toNat / 16 = 4 ∧ cmd.toNat % 16 ≤ 10 → decode cmd din = .ok (.rdrk (BitVec.ofNat 4 (cmd.toNat % 16)))) ∧
    (cmd.toNat / 16 = 5 ∧ cmd.toNat % 16 = 0 → decode cmd din = .ok (.gfmul (busByte din 0) (busByte din 1))) ∧
    (¬ ((cmd.toNat / 16 = 1 ∨ cmd.toNat / 16 = 2 ∨ cmd.toNat / 16 = 3 ∨ cmd.toNat / 16 = 5) ∧ cmd.toNat % 16 = 0) →
      ¬ (cmd.toNat / 16 = 4 ∧ cmd.toNat % 16 ≤ 10) → ∃ e, decode cmd din = .error e)

/-- Exactly 15 command words are legal, the other 241 are illegal, and an accepted illegal word raises IllegalCommand
(30_encoding.md R65; 60_exceptions.md R131, R140). -/
def Obligations.IllegalWords : Prop :=
  (∀ (cmd : BitVec 8) (din : BitVec 128), (∃ i, decode cmd din = .ok i) ↔
    cmd ∈ ([0x10, 0x20, 0x30, 0x40, 0x41, 0x42, 0x43, 0x44, 0x45, 0x46, 0x47, 0x48, 0x49, 0x4a, 0x50] :
      List (BitVec 8))) ∧
  (∀ din : BitVec 128, ((List.range 256).filter fun w => (decode (BitVec.ofNat 8 w) din).toOption.isNone).length = 241) ∧
  (∀ din : BitVec 128, ∃ e, decode 0x00 din = .error e) ∧
  ∀ s cmd din rest e, s.host = .command cmd din :: rest → s.ph = .idle → decode cmd din = .error e →
    ∃ t, step s = .next t ∧ response t = some (1, Block.zero)

/-- A few words written out from 30_encoding.md R64 and 95_test_vectors.md 2.7 decode to what they stand for. -/
def Obligations.DecodeSampleWords : Prop :=
  decode 0b00010000 0x000102030405060708090a0b0c0d0e0f =
    .ok (.kexp ⟨#[0, 1, 2, 3, 4, 5, 6, 7, 8, 9, 10, 11, 12, 13, 14, 15], rfl⟩) ∧
  decode 0b00100000 0xff000000000000000000000000000001 =
    .ok (.enc ⟨#[0xff, 0, 0, 0, 0, 0, 0, 0, 0, 0, 0, 0, 0, 0, 0, 1], rfl⟩) ∧
  decode 0b00110000 0x80000000000000000000000000000000 =
    .ok (.dec ⟨#[0x80, 0, 0, 0, 0, 0, 0, 0, 0, 0, 0, 0, 0, 0, 0, 0], rfl⟩) ∧
  decode 0b01001010 0xffffffffffffffffffffffffffffffff = .ok (.rdrk 10) ∧
  decode 0b01010000 0x5783deadbeefcafef00d0123456789ab = .ok (.gfmul 0x57 0x83) ∧
  decode 0b01001011 0 = .error .roundKeyNumber ∧ decode 0b00010001 0 = .error .nonzeroN ∧
  decode 0b01100000 0 = .error .reservedOp

/-- Byte `k` of a bus is bits `127 - 8k` down to `120 - 8k`; packing and unpacking a block undo each other; byte `k` of
a word in a 32-bit entry is bits `31 - 8k` down to `24 - 8k`, so that rotating the bytes left by one is a 32-bit rotate
left by 8; and the example (20_memory.md R48). -/
def Obligations.BusPacking : Prop :=
  (∀ (b : Block) (k : Fin 16), (busOfBlock b).extractLsb' (120 - 8 * k.val) 8 = b.get k) ∧
  (∀ d : BitVec 128, busOfBlock (blockOfBus d) = d) ∧ (∀ b : Block, blockOfBus (busOfBlock b) = b) ∧
  (∀ (w : Word) (k : Fin 4), (wordPack w).extractLsb' (24 - 8 * k.val) 8 = w.get k) ∧
  (∀ t : Word, wordPack (rotWord t) = (wordPack t).rotateLeft 8) ∧
  busOfBlock ⟨#[0x00, 0x01, 0x02, 0x03, 0x04, 0x05, 0x06, 0x07, 0x08, 0x09, 0x0a, 0x0b, 0x0c, 0x0d, 0x0e, 0x0f], rfl⟩ =
    0x000102030405060708090a0b0c0d0e0f

/-! ### Steps and the protocol -/

/-- A presented command that decodes is run by the step: the step is its meaning, in the state with the move taken away
(30_encoding.md R72, R74). -/
def Obligations.StepRunsDecoded : Prop :=
  ∀ s cmd din rest i, s.host = .command cmd din :: rest → s.ph = .idle → decode cmd din = .ok i →
    step s = exec i { s with host := rest }

/-- A step whose move is a clock edge, or no move at all, is that clock edge; and a command presented while PH is not
IDLE stays presented for an edge (30_encoding.md R72; log 8). -/
def Obligations.StepIsClockEdge : Prop :=
  ∀ s : State,
    (s.host = [] → step s = toOutcome (clockEdge quietPins s)) ∧
    (∀ p rest, s.host = .edge p :: rest → step s = toOutcome (clockEdge p { s with host := rest })) ∧
    (∀ cmd din rest, s.host = .command cmd din :: rest → s.ph ≠ .idle →
      step s = toOutcome (clockEdge (presentPins cmd din) s))

/-- The word placed by `withFetchWord` is run by the next step, from every state: a legal word as its meaning
(30_encoding.md R64, R72; log 17). -/
def Obligations.FetchWordRuns : Prop :=
  ∀ (s : State) nbits w i, decodeTableWord nbits w = some i →
    step (s.withFetchWord nbits w) = exec i { s with ph := .idle }

/-- A command is accepted at an edge with `rst` = 0, `cmd_valid` = 1 and `cmd_ready` = 1, and then `cmd_ready` is 0; at
an edge with `cmd_valid` = 0 an idle block keeps RK, KV and PH and gives no response (30_encoding.md R72, R66). Nothing
is said of the registers that 10_state.md R24 and R25 leave unspecified there. -/
def Obligations.AcceptanceHandshake : Prop :=
  (∀ s t p, p.rst = false → p.cmdValid = true → cmdReady s = true → clockEdge p s = .ok t → cmdReady t = false) ∧
  (∀ s p, p.rst = false → p.cmdValid = false → cmdReady s = true → ∃ t, clockEdge p s = .ok t ∧
    t.rk = s.rk ∧ t.kv = s.kv ∧ t.ph = .idle ∧ t.respValid = false)

/-- A command presented while `cmd_ready` = 0 has no effect of any kind: the edge does what it does when nothing is
presented (30_encoding.md R72; 70_reset_and_hazards.md R157). -/
def Obligations.BusyIgnoresPins : Prop :=
  ∀ s p, p.rst = false → cmdReady s = false → clockEdge p s = clockEdge quietPins s

/-- A response lasts one cycle, and at its end PH is IDLE again, with RK and KV as they were (30_encoding.md R73,
60_exceptions.md R140, R147). -/
def Obligations.ResponseLastsOneCycle : Prop :=
  ∀ s p, s.respValid = true → cmdReady s = false → p.rst = false →
    ∃ t, clockEdge p s = .ok t ∧ t.respValid = false ∧ cmdReady t = true ∧ t.rk = s.rk ∧ t.kv = s.kv

/-- An edge with `rst` = 1: KV 0, PH IDLE, RESP_VALID 0, nothing accepted, and RK without a value, from every state and
whatever is presented (70_reset_and_hazards.md R151; that RK reads as no value is log 10). -/
def Obligations.ResetEdgeEffect : Prop :=
  ∀ s p, p.rst = true → ∃ t, clockEdge p s = .ok t ∧ t.kv = false ∧ t.ph = .idle ∧ t.respValid = false ∧
    outPins t = ⟨true, false, false, none, none⟩ ∧ ∀ i, i < 44 → readWord t.rk i = .error .rkNoValue

/-- Reset during a command: it is abandoned and gives no response, then or later while the host presents nothing, and
the key is lost (70_reset_and_hazards.md R152). -/
def Obligations.ResetAbandonsCommand : Prop :=
  ∀ s p, p.rst = true → cmdReady s = false →
    (∃ t, clockEdge p s = .ok t ∧ t.kv = false ∧ response t = none) ∧
    ∀ n, ∃ u, Host.Core.run Sys2Proof.core (n + 1) { s with host := [.edge p] } = .next u ∧ response u = none ∧
      u.kv = false ∧ u.ph = .idle

/-- The state after reset: KV 0, `cmd_ready` 1, no response, no word of RK with a value (10_state.md R34). -/
def Obligations.ResetState : Prop :=
  State.reset.kv = false ∧ State.reset.ph = .idle ∧ State.reset.respValid = false ∧
    outPins State.reset = ⟨true, false, false, none, none⟩ ∧
    ∀ i, i < 44 → readWord State.reset.rk i = .error .rkNoValue

/-! ### The commands -/

/-- KEXP (41_key_scheduler.md R98): its word, with `n` 0 and no other, KV cleared at acceptance, RK replaced by the
expanded key whatever it held, KV set, OK with zeros, from every state; while it runs nothing presented has an effect;
no other command changes RK or KV; and the example. -/
def Obligations.KexpCommand : Prop :=
  (∀ din, decode 0x10 din = .ok (.kexp (blockOfBus din))) ∧
  (∀ (n : BitVec 4) din, n ≠ 0 → decode (0x10 + n.setWidth 8) din = .error .nonzeroN) ∧
  (∀ din s, (accept 0x10 din s).kv = false ∧ (accept 0x10 din s).ph = .kexp) ∧
  (∀ key s, ∃ t, exec (.kexp key) s = .next t ∧ readSchedule t.rk = .ok (expand key) ∧ t.kv = true ∧
    response t = some (0, Block.zero) ∧ (s.kv = true → s.rk = scheduleMemory (expand key) → t.rk = s.rk)) ∧
  (∀ s p, s.ph = .kexp → p.rst = false → clockEdge p s = clockEdge quietPins s) ∧
  (∀ i s t, (∀ key, i ≠ .kexp key) → exec i s = .next t → t.rk = s.rk ∧ t.kv = s.kv) ∧
  (∀ s, ∃ t, exec (.kexp (blockOfBus 0x000102030405060708090a0b0c0d0e0f)) s = .next t ∧
    response t = some (0, Block.zero) ∧ t.kv = true ∧
    readWord t.rk 0 = .ok ⟨#[0x00, 0x01, 0x02, 0x03], rfl⟩ ∧ readWord t.rk 3 = .ok ⟨#[0x0c, 0x0d, 0x0e, 0x0f], rfl⟩ ∧
    readWord t.rk 4 = .ok ⟨#[0xd6, 0xaa, 0x74, 0xfd], rfl⟩ ∧ readWord t.rk 43 = .ok ⟨#[0x4d, 0x2b, 0x30, 0xc5], rfl⟩)

/-- ENC (42_round_engine.md R117): its word, with `n` 0 and no other; NoKey when KV is 0; with a key and a schedule in
RK, OK with the cipher of the block, RK and KV unchanged; a permutation of the blocks for a fixed schedule; and the
example. -/
def Obligations.EncCommand : Prop :=
  (∀ din, decode 0x20 din = .ok (.enc (blockOfBus din))) ∧
  (∀ (n : BitVec 4) din, n ≠ 0 → decode (0x20 + n.setWidth 8) din = .error .nonzeroN) ∧
  (∀ block s, s.kv = false → ∃ t, exec (.enc block) s = .next t ∧ response t = some (2, Block.zero) ∧ t.rk = s.rk ∧
    t.kv = s.kv) ∧
  (∀ block s rk, s.kv = true → readSchedule s.rk = .ok rk → ∃ t, exec (.enc block) s = .next t ∧
    response t = some (0, cipher rk block) ∧ t.rk = s.rk ∧ t.kv = s.kv) ∧
  (∀ rk, Function.Bijective (cipher rk)) ∧
  (∀ s, s.kv = true → readSchedule s.rk = .ok (expand (blockOfBus 0x000102030405060708090a0b0c0d0e0f)) →
    ∃ t, exec (.enc (blockOfBus 0x00112233445566778899aabbccddeeff)) s = .next t ∧
      response t = some (0, blockOfBus 0x69c4e0d86a7b0430d8cdb78070b4c55a))

/-- DEC (42_round_engine.md R118): its word, with `n` 0 and no other; NoKey when KV is 0; with a key and a schedule in
RK, OK with the inverse cipher of the block, which is the unique block whose ENC is the given one, RK and KV unchanged;
and the example. -/
def Obligations.DecCommand : Prop :=
  (∀ din, decode 0x30 din = .ok (.dec (blockOfBus din))) ∧
  (∀ (n : BitVec 4) din, n ≠ 0 → decode (0x30 + n.setWidth 8) din = .error .nonzeroN) ∧
  (∀ block s, s.kv = false → ∃ t, exec (.dec block) s = .next t ∧ response t = some (2, Block.zero) ∧ t.rk = s.rk ∧
    t.kv = s.kv) ∧
  (∀ block s rk, s.kv = true → readSchedule s.rk = .ok rk → ∃ t, exec (.dec block) s = .next t ∧
    response t = some (0, invcipher rk block) ∧ t.rk = s.rk ∧ t.kv = s.kv) ∧
  (∀ rk block, cipher rk (invcipher rk block) = block ∧ ∀ other, cipher rk other = block → other = invcipher rk block) ∧
  (∀ s, s.kv = true → readSchedule s.rk = .ok (expand (blockOfBus 0x000102030405060708090a0b0c0d0e0f)) →
    ∃ t, exec (.dec (blockOfBus 0x69c4e0d86a7b0430d8cdb78070b4c55a)) s = .next t ∧
      response t = some (0, blockOfBus 0x00112233445566778899aabbccddeeff))

/-- RDRK (41_key_scheduler.md R101): words `0x40 + n` with `n` at most 10, whatever `din` is, and no other `n`; NoKey
when KV is 0; with a key and the four words in RK, OK with byte `r + 4c` equal to byte `r` of word `4n + c`, and no
other change but PH; `RDRK 0` is the key and `RDRK 10` the last four words; and the example. -/
def Obligations.RdrkCommand : Prop :=
  (∀ (n : BitVec 4) din, n.toNat ≤ 10 → decode (0x40 + n.setWidth 8) din = .ok (.rdrk n)) ∧
  (∀ (n : BitVec 4) din, 10 < n.toNat → decode (0x40 + n.setWidth 8) din = .error .roundKeyNumber) ∧
  (∀ (n : BitVec 4) s, n.toNat ≤ 10 → s.kv = false →
    ∃ t, exec (.rdrk n) s = .next t ∧ response t = some (2, Block.zero) ∧ t.rk = s.rk ∧ t.kv = s.kv) ∧
  (∀ (n : BitVec 4) s (k : RoundWords), n.toNat ≤ 10 → s.kv = true →
    (∀ c : Fin 4, readWord s.rk (4 * n.toNat + c.val) = .ok (k.get c)) →
    ∃ t, exec (.rdrk n) s = .next t ∧ (∃ out, response t = some (0, out) ∧
      ∀ r c : Fin 4, out.get ⟨r.val + 4 * c.val, by omega⟩ = (k.get c).get r) ∧
      t.rk = s.rk ∧ t.kv = s.kv ∧ t.st = s.st ∧ t.wi = s.wi ∧ t.rnd = s.rnd) ∧
  (∀ key s, s.kv = true → readSchedule s.rk = .ok (expand key) →
    (∃ t, exec (.rdrk 0) s = .next t ∧ response t = some (0, key)) ∧
    (∃ t out, exec (.rdrk 10) s = .next t ∧ response t = some (0, out) ∧
      ∀ r c : Fin 4, out.get ⟨r.val + 4 * c.val, by omega⟩ = ((expand key).get ⟨40 + c.val, by omega⟩).get r)) ∧
  (∀ s, s.kv = true → readSchedule s.rk = .ok (expand (blockOfBus 0x000102030405060708090a0b0c0d0e0f)) →
    ∃ t, exec (.rdrk 1) s = .next t ∧ response t = some (0, blockOfBus 0xd6aa74fdd2af72fadaa678f1d6ab76fe))

/-- GFMUL (40_gf_arithmetic.md R86): its word, with `n` 0 and no other, the factors in bytes 0 and 1 of `din` and the
other bytes ignored; OK with the product in byte 0 and zeros elsewhere, with or without a key, and no other change but
PH; the corner cases; and the example. -/
def Obligations.GfmulCommand : Prop :=
  (∀ din, decode 0x50 din = .ok (.gfmul (busByte din 0) (busByte din 1))) ∧
  (∀ (n : BitVec 4) din, n ≠ 0 → decode (0x50 + n.setWidth 8) din = .error .nonzeroN) ∧
  (∀ din din', busByte din 0 = busByte din' 0 → busByte din 1 = busByte din' 1 → decode 0x50 din = decode 0x50 din') ∧
  (∀ a b s, ∃ t out, exec (.gfmul a b) s = .next t ∧ response t = some (0, out) ∧ out.get 0 = gfmul a b ∧
    (∀ k : Fin 16, k ≠ 0 → out.get k = 0) ∧
    t.rk = s.rk ∧ t.kv = s.kv ∧ t.st = s.st ∧ t.wi = s.wi ∧ t.rnd = s.rnd) ∧
  (∀ a : Byte, gfmul 0 a = 0 ∧ gfmul a 0 = 0 ∧ gfmul 1 a = a) ∧ gfmul 0xff 0xff = 0x13 ∧
  (∀ s, ∃ t, exec (.gfmul 0x57 0x83) s = .next t ∧
    response t = some (0, blockOfBus 0xc1000000000000000000000000000000))

/-- NoKey (60_exceptions.md R132): ENC, DEC and a legal RDRK with KV 0 respond ERR_NOKEY with zeros and change nothing
else: RK, KV and ST stay, and the answer depends neither on the block nor on RK. KEXP and GFMUL never raise it. -/
def Obligations.NoKeyFault : Prop :=
  (∀ i s, s.kv = false → i.wf = true → (∀ k, i ≠ .kexp k) → (∀ a b, i ≠ .gfmul a b) →
    ∃ t, exec i s = .next t ∧ response t = some (2, Block.zero) ∧
      t.rk = s.rk ∧ t.kv = s.kv ∧ t.st = s.st ∧ t.wi = s.wi ∧ t.rnd = s.rnd ∧
      ∀ rk', ∃ t', exec i { s with rk := rk' } = .next t' ∧ response t' = response t) ∧
  (∀ key s, ∃ t, exec (.kexp key) s = .next t ∧ response t ≠ some (2, Block.zero)) ∧
  (∀ a b s, ∃ t d, exec (.gfmul a b) s = .next t ∧ response t = some (0, d))

/-- IllegalCommand (60_exceptions.md R131, R139): an accepted illegal word responds ERR_ILLEGAL with zeros whatever KV
and `din` are, so before NoKey; RK, KV (also for a word with `op` 1), ST, WI and RND stay. -/
def Obligations.IllegalCommandFault : Prop :=
  ∀ s cmd din e, decode cmd din = .error e →
    ∃ t, runWord cmd din s = .next t ∧ response t = some (1, Block.zero) ∧
      t.rk = s.rk ∧ t.kv = s.kv ∧ t.st = s.st ∧ t.wi = s.wi ∧ t.rnd = s.rnd ∧
      ∀ din', runWord cmd din' s = runWord cmd din s

/-- The meaning of an ill-formed RDRK, which no word decodes to, is IllegalCommand too (model's choice, log 19). -/
def Obligations.IllFormedRdrk : Prop :=
  ∀ (n : BitVec 4) s, 10 < n.toNat → ∃ t, exec (.rdrk n) s = .next t ∧ response t = some (1, Block.zero) ∧
    t.rk = s.rk ∧ t.kv = s.kv

/-- ENC, DEC and RDRK with KV 1 over an RK in which a word they read holds no value stop with rkNoValue: "A model that
finds itself reading one of them outside these guards has departed from the spec and should fault" (10_state.md R35;
log 1). No run from reset gets there (StepKeepsInvariant, NoStepStops). -/
def Obligations.UnwrittenScheduleFaults : Prop :=
  (∀ i s f, ((∃ b, i = .enc b) ∨ ∃ b, i = .dec b) → s.kv = true → readSchedule s.rk = .error f →
    exec i s = .fault .rkNoValue) ∧
  ∀ (n : BitVec 4) s f, n.toNat ≤ 10 → s.kv = true → readRound s.rk n.toNat = .error f →
    exec (.rdrk n) s = .fault .rkNoValue

/-- The sequencer, one word or one round at a time: KEXP produces word WI and goes on to WI + 1, and after word 43 sets KV
and responds; ENC does round RND and goes up, DEC goes down, and after round 10 or 0 each responds with Store of the state
(41_key_scheduler.md R99; 42_round_engine.md R119, R120; that a step is a whole round is log 6). -/
def Obligations.SequencerSteps : Prop :=
  (∀ s a b, s.ph = .kexp → 4 ≤ s.wi.toNat → s.wi.toNat ≤ 43 → readWord s.rk (s.wi.toNat - 4) = .ok a →
    readWord s.rk (s.wi.toNat - 1) = .ok b →
    microStep s = .ok { s with rk := putWord s.rk s.wi.toNat (Word.xor a (temp s.wi.toNat b)), wi := s.wi + 1 } ∧
    lastStep s = .ok (respond .kexp .ok Block.zero
      { s with rk := putWord s.rk s.wi.toNat (Word.xor a (temp s.wi.toNat b)), kv := true })) ∧
  (∀ s k, s.ph = .enc → s.rnd.toNat ≤ 10 → readRound s.rk s.rnd.toNat = .ok k →
    microStep s = .ok { s with st := encRound s.rnd.toNat k s.st, rnd := s.rnd + 1 } ∧
    lastStep s = .ok (respond .enc .ok (store (encRound s.rnd.toNat k s.st))
      { s with st := encRound s.rnd.toNat k s.st })) ∧
  (∀ s k, s.ph = .dec → s.rnd.toNat ≤ 10 → readRound s.rk s.rnd.toNat = .ok k →
    microStep s = .ok { s with st := decRound s.rnd.toNat k s.st, rnd := s.rnd - 1 } ∧
    lastStep s = .ok (respond .dec .ok (store (decRound s.rnd.toNat k s.st))
      { s with st := decRound s.rnd.toNat k s.st })) ∧
  ∀ s, (s.ph = .kexp → (atLastStep s = true ↔ s.wi = 43)) ∧ (s.ph = .enc → (atLastStep s = true ↔ s.rnd = 10)) ∧
    (s.ph = .dec → (atLastStep s = true ↔ s.rnd = 0))

/-- Frame of ENC and DEC: when one answers a next state, every cell of RK reads as before, and KV, WI and the model's
own fields are unchanged (42_round_engine.md R117, R118: they write ST, RND and the response). -/
def Obligations.TransformFrame : Prop :=
  ∀ i s t, ((∃ b, i = .enc b) ∨ ∃ b, i = .dec b) → exec i s = .next t →
    (∀ x, readCell t.rk x = readCell s.rk x) ∧ t.kv = s.kv ∧ t.wi = s.wi ∧ t.host = s.host ∧ t.latLeft = s.latLeft ∧
      t.draws = s.draws

/-- Frame of RDRK and GFMUL: when one answers a next state, every cell of RK reads as before, and every register but PH
and the response registers is unchanged (41_key_scheduler.md R101, 40_gf_arithmetic.md R86: they write the response). -/
def Obligations.ReadOnlyFrame : Prop :=
  ∀ i s t, ((∃ n, i = .rdrk n) ∨ ∃ a b, i = .gfmul a b) → exec i s = .next t →
    (∀ x, readCell t.rk x = readCell s.rk x) ∧ t.kv = s.kv ∧ t.st = s.st ∧ t.wi = s.wi ∧ t.rnd = s.rnd ∧
      t.host = s.host ∧ t.latLeft = s.latLeft ∧ t.draws = s.draws

/-- Frame of KEXP: when it answers a next state, ST, RND and the model's own fields are unchanged, and the cells of RK
hold the bytes of the schedule it writes, entries 0..43 and no others (41_key_scheduler.md R98, R102). -/
def Obligations.KexpFrame : Prop :=
  ∀ key s t, exec (.kexp key) s = .next t →
    t.st = s.st ∧ t.rnd = s.rnd ∧ t.host = s.host ∧ t.latLeft = s.latLeft ∧ t.draws = s.draws ∧
      (∀ (i : Fin 44) (k : Fin 4), readCell t.rk (4 * i.val + k.val) = some (((expand key).get i).get k)) ∧
      ∀ x, 176 ≤ x → readCell t.rk x = none

/-! ### The key schedule -/

/-- RotWord, its 32-bit form, and the example (41_key_scheduler.md R91). -/
def Obligations.RotWordRule : Prop :=
  (∀ t : Word, (rotWord t).get 0 = t.get 1 ∧ (rotWord t).get 1 = t.get 2 ∧ (rotWord t).get 2 = t.get 3 ∧
    (rotWord t).get 3 = t.get 0) ∧
  (∀ t : Word, wordPack (rotWord t) = (wordPack t).rotateLeft 8) ∧
  rotWord ⟨#[0x0c, 0x0d, 0x0e, 0x0f], rfl⟩ = ⟨#[0x0d, 0x0e, 0x0f, 0x0c], rfl⟩

/-- SubWord and AddRcon with their examples (41_key_scheduler.md R92, R93). -/
def Obligations.SubWordAndAddRcon : Prop :=
  (∀ (t : Word) (k : Fin 4), (subWord t).get k = SBOX (t.get k)) ∧
  subWord ⟨#[0x0d, 0x0e, 0x0f, 0x0c], rfl⟩ = ⟨#[0xd7, 0xab, 0x76, 0xfe], rfl⟩ ∧
  (∀ (t : Word) j, (addRcon t j).get 0 = t.get 0 ^^^ rcon j ∧ ∀ k : Fin 4, k ≠ 0 → (addRcon t j).get k = t.get k) ∧
  (∀ (t : Word) j, addRcon t j = Word.xor t ⟨#[rcon j, 0, 0, 0], rfl⟩) ∧
  addRcon ⟨#[0xd7, 0xab, 0x76, 0xfe], rfl⟩ 1 = ⟨#[0xd6, 0xab, 0x76, 0xfe], rfl⟩

/-- The schedule: words 0 to 3 are the key, every later word is the word four earlier XOR the transformed previous word,
and round key 0 is the key (41_key_scheduler.md R94, R95, R96); the dead branch is never taken (R97). -/
def Obligations.ScheduleRecurrence : Prop :=
  (∀ (i : Nat) (t : Word), i % 4 = 0 → temp i t = addRcon (subWord (rotWord t)) (i / 4)) ∧
  (∀ (i : Nat) (t : Word), i % 4 ≠ 0 → temp i t = t) ∧ (∀ i : Nat, i % Config.NK ≠ 4) ∧
  (∀ (key : Block) (i k : Fin 4), ((expand key).get ⟨i.val, by omega⟩).get k = key.get ⟨4 * i.val + k.val, by omega⟩) ∧
  (∀ (key : Block) (i : Nat) (_ : 4 ≤ i) (_ : i < 44),
    (expand key)[i] = Word.xor (expand key)[i - 4] (temp i (expand key)[i - 1])) ∧
  ∀ key : Block, roundkey (expand key) 0 = key

/-- Byte `r + 4c` of round key `n` is byte `r` of word `4n + c` (41_key_scheduler.md R100). -/
def Obligations.RoundKeyBytes : Prop :=
  (∀ (rk : Schedule) (n : Fin 11) (r c : Fin 4), (roundkey rk n).get ⟨r.val + 4 * c.val, by omega⟩ =
    (rk.get ⟨4 * n.val + c.val, by omega⟩).get r) ∧
  ∀ key : Block, roundkey (expand key) 0 = key

/-- The ten round constants (40_gf_arithmetic.md R83). -/
def Obligations.RoundConstants : Prop :=
  rcon 1 = 0x01 ∧ (∀ i, 2 ≤ i → i ≤ 10 → rcon i = gfmul 0x02 (rcon (i - 1))) ∧
  [rcon 1, rcon 2, rcon 3, rcon 4, rcon 5, rcon 6, rcon 7, rcon 8, rcon 9, rcon 10] =
    ([0x01, 0x02, 0x04, 0x08, 0x10, 0x20, 0x40, 0x80, 0x1b, 0x36] : List Byte)

/-! ### The field and the tables -/

/-- `gfmul` is the product of the bytes' polynomials over GF(2), reduced modulo `x^8 + x^4 + x^3 + x + 1`
(40_gf_arithmetic.md R80, R81): the two products differ by a multiple of that polynomial; and it is the entry of GFTAB
at linear address `256*a + b`, which the two loops of R81 fill. -/
def Obligations.GfmulIsPolynomialProduct : Prop :=
  (∀ a b : Byte, gfmul a b = GFTAB (BitVec.ofNat 16 (256 * a.toNat + b.toNat)) ∧ gfmul a b = polyReduce (polyMul a b)) ∧
  ∀ a b : Byte, ∃ q : Polynomial (ZMod 2),
    (∑ i ∈ Finset.range 8, if a.getLsbD i then (Polynomial.X ^ i : Polynomial (ZMod 2)) else 0) *
      (∑ i ∈ Finset.range 8, if b.getLsbD i then (Polynomial.X ^ i : Polynomial (ZMod 2)) else 0) =
    q * (Polynomial.X ^ 8 + Polynomial.X ^ 4 + Polynomial.X ^ 3 + Polynomial.X + 1) +
      ∑ i ∈ Finset.range 8, if (gfmul a b).getLsbD i then (Polynomial.X ^ i : Polynomial (ZMod 2)) else 0

/-- The laws of `gfmul` and XOR (40_gf_arithmetic.md R84). -/
def Obligations.FieldLaws : Prop :=
  (∀ a b : Byte, gfmul a b = gfmul b a) ∧ (∀ a b c : Byte, gfmul (gfmul a b) c = gfmul a (gfmul b c)) ∧
  (∀ a b c : Byte, gfmul a (b ^^^ c) = gfmul a b ^^^ gfmul a c) ∧ (∀ a : Byte, gfmul a 0 = 0) ∧
  (∀ a : Byte, gfmul a 1 = a) ∧ (∀ a b : Byte, gfmul a b = 0 → a = 0 ∨ b = 0) ∧
  (∀ a : Byte, a ≠ 0 → ∃! b : Byte, gfmul a b = 1) ∧ gfmul 0x53 0xca = 0x01 ∧
  (∀ a b c : Byte, a ^^^ b = b ^^^ a ∧ (a ^^^ b) ^^^ c = a ^^^ (b ^^^ c) ∧ a ^^^ 0 = a ∧ a ^^^ a = 0) ∧
  (∀ a : Byte, gfmul 0x03 a = xtime a ^^^ a ∧ gfmul 0x09 a = xtime (xtime (xtime a)) ^^^ a ∧
    gfmul 0x0b a = xtime (xtime (xtime a)) ^^^ xtime a ^^^ a ∧
    gfmul 0x0d a = xtime (xtime (xtime a)) ^^^ xtime (xtime a) ^^^ a ∧
    gfmul 0x0e a = xtime (xtime (xtime a)) ^^^ xtime (xtime a) ^^^ xtime a)

/-- Doubling in closed form, with the examples (40_gf_arithmetic.md R82). -/
def Obligations.DoublingClosedForm : Prop :=
  (∀ a : Byte, xtime a = gfmul 0x02 a ∧ xtime a = (a <<< 1) ^^^ (if a.getLsbD 7 then 0x1b else 0x00)) ∧
  xtime 0x57 = 0xae ∧ xtime 0xae = 0x47 ∧ xtime 0x80 = 0x1b

/-- SBOX is the affine image of the multiplicative inverse, the inverse of 0 taken as 0; with the three entries the rule
names (20_memory.md R42). -/
def Obligations.SboxIsAffineInverse : Prop :=
  (∀ a b : Byte, (a = 0 ∧ b = 0) ∨ gfmul a b = 1 →
    SBOX a = b ^^^ b.rotateLeft 1 ^^^ b.rotateLeft 2 ^^^ b.rotateLeft 3 ^^^ b.rotateLeft 4 ^^^ 0x63) ∧
  (∀ a : Byte, a ≠ 0 → ∃ b : Byte, gfmul a b = 1) ∧ SBOX 0x00 = 0x63 ∧ SBOX 0x53 = 0xed ∧ SBOX 0xff = 0x16

/-- SBOX and INV_SBOX are permutations inverse to each other, and SBOX has no fixed point (20_memory.md R44). -/
def Obligations.SboxPermutation : Prop :=
  Function.Bijective SBOX ∧ Function.Bijective INV_SBOX ∧
    ∀ a : Byte, INV_SBOX (SBOX a) = a ∧ SBOX (INV_SBOX a) = a ∧ SBOX a ≠ a

/-! ### The round engine -/

/-- Load and Store are column-major, Store undoes Load, and the example (42_round_engine.md R105, R106). -/
def Obligations.LoadStore : Prop :=
  (∀ (b : Block) (r c : Fin 4), (load b).at r c = b.get ⟨r.val + 4 * c.val, by omega⟩) ∧
  (∀ (s : Matrix) (r c : Fin 4), (store s).get ⟨r.val + 4 * c.val, by omega⟩ = s.at r c) ∧
  (∀ b : Block, store (load b) = b) ∧
  load (blockOfBus 0x00112233445566778899aabbccddeeff) =
    ⟨#[⟨#[0x00, 0x44, 0x88, 0xcc], rfl⟩, ⟨#[0x11, 0x55, 0x99, 0xdd], rfl⟩, ⟨#[0x22, 0x66, 0xaa, 0xee], rfl⟩,
      ⟨#[0x33, 0x77, 0xbb, 0xff], rfl⟩], rfl⟩

/-- AddRoundKey: column `c` meets word `4n + c`, row `r` byte `r`; on the bytes it is XOR with the round key; it is its
own inverse; and the example (42_round_engine.md R107). -/
def Obligations.AddRoundKeyRule : Prop :=
  (∀ (rk : Schedule) (n : Fin 11) (s : Matrix) (r c : Fin 4), (addRoundKey (roundWords rk n) s).at r c =
    s.at r c ^^^ (rk.get ⟨4 * n.val + c.val, by omega⟩).get r) ∧
  (∀ (rk : Schedule) (n : Fin 11) (s : Matrix) (k : Fin 16),
    (store (addRoundKey (roundWords rk n) s)).get k = (store s).get k ^^^ (roundkey rk n).get k) ∧
  (∀ (k : RoundWords) (s : Matrix), addRoundKey k (addRoundKey k s) = s) ∧
  store (addRoundKey (roundWords (expand (blockOfBus 0x000102030405060708090a0b0c0d0e0f)) 0)
    (load (blockOfBus 0x00112233445566778899aabbccddeeff))) = blockOfBus 0x00102030405060708090a0b0c0d0e0f0

/-- ShiftRows and InvShiftRows by row and column, on the byte string, and the example of ShiftRows (42_round_engine.md
R110, R111). -/
def Obligations.ShiftRowsRules : Prop :=
  (∀ (s : Matrix) (r c : Fin 4), (shiftRows s).at r c = s.at r ⟨(c.val + r.val) % 4, by omega⟩) ∧
  (∀ (b : Block), store (shiftRows (load b)) = ⟨#[b.get 0, b.get 5, b.get 10, b.get 15, b.get 4, b.get 9, b.get 14,
    b.get 3, b.get 8, b.get 13, b.get 2, b.get 7, b.get 12, b.get 1, b.get 6, b.get 11], rfl⟩) ∧
  store (shiftRows (load (blockOfBus 0x63cab7040953d051cd60e0e7ba70e18c))) =
    blockOfBus 0x6353e08c0960e104cd70b751bacad0e7 ∧
  (∀ (s : Matrix) (r c : Fin 4), (invShiftRows s).at r c = s.at r ⟨(c.val + 4 - r.val) % 4, by omega⟩) ∧
  (∀ (b : Block), store (invShiftRows (load b)) = ⟨#[b.get 0, b.get 13, b.get 10, b.get 7, b.get 4, b.get 1, b.get 14,
    b.get 11, b.get 8, b.get 5, b.get 2, b.get 15, b.get 12, b.get 9, b.get 6, b.get 3], rfl⟩) ∧
  ∀ s : Matrix, invShiftRows (shiftRows s) = s

/-- MixColumns written out, column by column, with the examples (42_round_engine.md R112, R113). -/
def Obligations.MixColumnsRule : Prop :=
  (∀ (q a : Word), (mixcol q a).get 0 = gfmul (q.get 0) (a.get 0) ^^^ gfmul (q.get 1) (a.get 3) ^^^
      gfmul (q.get 2) (a.get 2) ^^^ gfmul (q.get 3) (a.get 1) ∧
    (mixcol q a).get 1 = gfmul (q.get 0) (a.get 1) ^^^ gfmul (q.get 1) (a.get 0) ^^^ gfmul (q.get 2) (a.get 3) ^^^
      gfmul (q.get 3) (a.get 2) ∧
    (mixcol q a).get 2 = gfmul (q.get 0) (a.get 2) ^^^ gfmul (q.get 1) (a.get 1) ^^^ gfmul (q.get 2) (a.get 0) ^^^
      gfmul (q.get 3) (a.get 3) ∧
    (mixcol q a).get 3 = gfmul (q.get 0) (a.get 3) ^^^ gfmul (q.get 1) (a.get 2) ^^^ gfmul (q.get 2) (a.get 1) ^^^
      gfmul (q.get 3) (a.get 0)) ∧
  (∀ (s : Matrix) (c : Fin 4),
    (mixColumns s).at 0 c = gfmul 2 (s.at 0 c) ^^^ gfmul 3 (s.at 1 c) ^^^ s.at 2 c ^^^ s.at 3 c ∧
    (mixColumns s).at 1 c = s.at 0 c ^^^ gfmul 2 (s.at 1 c) ^^^ gfmul 3 (s.at 2 c) ^^^ s.at 3 c ∧
    (mixColumns s).at 2 c = s.at 0 c ^^^ s.at 1 c ^^^ gfmul 2 (s.at 2 c) ^^^ gfmul 3 (s.at 3 c) ∧
    (mixColumns s).at 3 c = gfmul 3 (s.at 0 c) ^^^ s.at 1 c ^^^ s.at 2 c ^^^ gfmul 2 (s.at 3 c)) ∧
  (∀ (s : Matrix) (c : Fin 4), column (mixColumns s) c = mixcol ⟨#[0x02, 0x01, 0x01, 0x03], rfl⟩ (column s c)) ∧
  mixcol ⟨#[0x02, 0x01, 0x01, 0x03], rfl⟩ ⟨#[0xdb, 0x13, 0x53, 0x45], rfl⟩ = ⟨#[0x8e, 0x4d, 0xa1, 0xbc], rfl⟩ ∧
  mixcol ⟨#[0x02, 0x01, 0x01, 0x03], rfl⟩ ⟨#[0x01, 0x01, 0x01, 0x01], rfl⟩ = ⟨#[0x01, 0x01, 0x01, 0x01], rfl⟩ ∧
  store (mixColumns (load (blockOfBus 0x6353e08c0960e104cd70b751bacad0e7))) =
    blockOfBus 0x5f72641557f5bc92f7be3b291db9f91a

/-- InvMixColumns written out, column by column; it undoes MixColumns and MixColumns undoes it; the product of the two
coefficient vectors; and the example (42_round_engine.md R114). -/
def Obligations.InvMixColumnsRule : Prop :=
  (∀ (s : Matrix) (c : Fin 4),
    (invMixColumns s).at 0 c = gfmul 0x0e (s.at 0 c) ^^^ gfmul 0x0b (s.at 1 c) ^^^ gfmul 0x0d (s.at 2 c) ^^^
      gfmul 0x09 (s.at 3 c) ∧
    (invMixColumns s).at 1 c = gfmul 0x09 (s.at 0 c) ^^^ gfmul 0x0e (s.at 1 c) ^^^ gfmul 0x0b (s.at 2 c) ^^^
      gfmul 0x0d (s.at 3 c) ∧
    (invMixColumns s).at 2 c = gfmul 0x0d (s.at 0 c) ^^^ gfmul 0x09 (s.at 1 c) ^^^ gfmul 0x0e (s.at 2 c) ^^^
      gfmul 0x0b (s.at 3 c) ∧
    (invMixColumns s).at 3 c = gfmul 0x0b (s.at 0 c) ^^^ gfmul 0x0d (s.at 1 c) ^^^ gfmul 0x09 (s.at 2 c) ^^^
      gfmul 0x0e (s.at 3 c)) ∧
  (∀ (s : Matrix) (c : Fin 4), column (invMixColumns s) c = mixcol ⟨#[0x0e, 0x09, 0x0d, 0x0b], rfl⟩ (column s c)) ∧
  (∀ s : Matrix, invMixColumns (mixColumns s) = s ∧ mixColumns (invMixColumns s) = s) ∧
  mixcol ⟨#[0x02, 0x01, 0x01, 0x03], rfl⟩ ⟨#[0x0e, 0x09, 0x0d, 0x0b], rfl⟩ = ⟨#[0x01, 0x00, 0x00, 0x00], rfl⟩ ∧
  mixcol ⟨#[0x0e, 0x09, 0x0d, 0x0b], rfl⟩ ⟨#[0x8e, 0x4d, 0xa1, 0xbc], rfl⟩ = ⟨#[0xdb, 0x13, 0x53, 0x45], rfl⟩

/-- The forward and the inverse sequence written out: round keys 0..10 up and 10..0 down, MixColumns omitted in round
10, InvMixColumns in round 0, AddRoundKey before InvMixColumns; SubBytes and ShiftRows commute (42_round_engine.md R115,
R116). -/
def Obligations.RoundSequences : Prop :=
  (∀ s : Matrix, shiftRows (subBytes s) = subBytes (shiftRows s)) ∧
  ∀ (rk : Schedule) (block : Block),
    cipher rk block = store (addRoundKey (roundWords rk 10) (shiftRows (subBytes
      (([1, 2, 3, 4, 5, 6, 7, 8, 9] : List (Fin 11)).foldl
        (fun s n => addRoundKey (roundWords rk n) (mixColumns (shiftRows (subBytes s))))
        (addRoundKey (roundWords rk 0) (load block)))))) ∧
    invcipher rk block = store (addRoundKey (roundWords rk 0) (invSubBytes (invShiftRows
      (([9, 8, 7, 6, 5, 4, 3, 2, 1] : List (Fin 11)).foldl
        (fun s n => invMixColumns (addRoundKey (roundWords rk n) (invSubBytes (invShiftRows s))))
        (addRoundKey (roundWords rk 10) (load block))))))

/-- Round trip under every schedule, made by KEXP or not, and the inverse pairs it rests on (42_round_engine.md R122). -/
def Obligations.RoundTrip : Prop :=
  (∀ s : Matrix, invSubBytes (subBytes s) = s ∧ invShiftRows (shiftRows s) = s ∧ invMixColumns (mixColumns s) = s) ∧
  (∀ (k : RoundWords) (s : Matrix), addRoundKey k (addRoundKey k s) = s) ∧ (∀ b : Block, store (load b) = b) ∧
  ∀ (rk : Schedule) (p : Block), invcipher rk (cipher rk p) = p ∧ cipher rk (invcipher rk p) = p

/-- DEC of what ENC answered, under the same key, answers the block ENC was given, and the other way round
(42_round_engine.md R117, R118, R122; 90_conflicts.md C5). -/
def Obligations.DecUndoesEnc : Prop :=
  ∀ block s rk, s.kv = true → readSchedule s.rk = .ok rk →
    (∃ t c u, exec (.enc block) s = .next t ∧ response t = some (0, c) ∧ exec (.dec c) (endResponse t) = .next u ∧
      response u = some (0, block)) ∧
    (∃ t c u, exec (.dec block) s = .next t ∧ response t = some (0, c) ∧ exec (.enc c) (endResponse t) = .next u ∧
      response u = some (0, block))

/-! ### Whole-machine rules -/

/-- Every command's answer is a function of RK, KV and the command: states that agree on RK and KV give responses, RK
and KV that agree (42_round_engine.md R123; 10_state.md R32). -/
def Obligations.AnswerDependsOnKeyState : Prop :=
  ∀ i s s' t, s.rk = s'.rk → s.kv = s'.kv → exec i s = .next t →
    ∃ t', exec i s' = .next t' ∧ response t' = response t ∧ t'.rk = t.rk ∧ t'.kv = t.kv

/-- With KV 0 what RK held reaches neither the response nor any other register: two states that differ only in RK give
the same response, KV, ST, WI and RND, and KEXP leaves the same RK in both; every other command leaves RK as it was, and
nothing is said of its erasure (70_reset_and_hazards.md R163, 60_exceptions.md R132, 20_memory.md R58). -/
def Obligations.OldScheduleUnreadable : Prop :=
  ∀ i s rk', s.kv = false → ∃ t t', exec i s = .next t ∧ exec i { s with rk := rk' } = .next t' ∧
    response t' = response t ∧ t'.kv = t.kv ∧ t'.st = t.st ∧ t'.wi = t.wi ∧ t'.rnd = t.rnd ∧
    ((∃ key, i = .kexp key) → t'.rk = t.rk) ∧ ((∀ key, i ≠ .kexp key) → t.rk = s.rk ∧ t'.rk = rk')

/-- "Once created, its round-key material is immutable": from every state a step changes RK or KV only if it is a reset
edge, or a KEXP in progress, or the acceptance of the word 0x10 (10_state.md R21, R22; 41_key_scheduler.md R102). -/
def Obligations.KeyMaterialImmutable : Prop :=
  ∀ s t, step s = .next t → t.rk ≠ s.rk ∨ t.kv ≠ s.kv →
    ResetMove s ∨ (s.ph = .kexp ∧ s.respValid = false) ∨ (s.ph = .idle ∧ Presents s 0x10)

/-- Every step keeps the canonical form of RK, from every state that has it (20_memory.md R40, R51). -/
def Obligations.StepKeepsMemoryForm : Prop :=
  ∀ s t, Memory.wf s.rk = true → step s = .next t → Memory.wf t.rk = true

/-- Every step keeps the invariant: with KV 1, RK is the schedule of some key; PH agrees with the registers it uses; and
a response carries a status the spec names (10_state.md R21, R22, R24; 60_exceptions.md R130, R132). -/
def Obligations.StepKeepsInvariant : Prop := ∀ s t, Sound s → step s = .next t → Sound t

/-- The invariant holds after reset. -/
def Obligations.ResetHasInvariant : Prop := Sound State.reset

/-- From every sound state the machine has a next state: no command, no clock edge and no reset stops it
(60_exceptions.md R147, 70_reset_and_hazards.md R160, 10_state.md R35). -/
def Obligations.NoStepStops : Prop := ∀ s, Sound s → ∃ t, step s = .next t

/-- The block at its pins does what the command-level view says: a command accepted at a clock edge gives its response
exactly LAT edges on, whatever is presented meanwhile, no response before, busy from the first edge, and then every
register and memory is as one command step leaves it (30_encoding.md R72 to R74; 41_key_scheduler.md R99;
42_round_engine.md R119, R120; 70_reset_and_hazards.md R159, R160). LAT is a free value; that the edge of acceptance is
the first of the LAT edges is log 5. -/
def Obligations.ClockRefinesCommand : Prop :=
  ∀ s cmd din t (later : List Pins), Sound s → s.ph = .idle → (∀ p ∈ later, p.rst = false) →
    step { s with host := [.command cmd din] } = .next t →
    (∃ u, Host.Core.run Sys2Proof.core (Config.LAT (latencyOf (beginWord cmd din s).ph) s.draws)
        { s with host := .edge (presentPins cmd din) :: later.map .edge } = .next u ∧ SameArch t u) ∧
    ∀ n, n < Config.LAT (latencyOf (beginWord cmd din s).ph) s.draws →
      ∃ v, Host.Core.run Sys2Proof.core n { s with host := .edge (presentPins cmd din) :: later.map .edge } = .next v ∧
        v.respValid = false ∧ (cmdReady v = true ↔ n = 0)

/-! ### Added after the first review -/

/-- SubBytes and InvSubBytes put SBOX and INV_SBOX at every position; InvSubBytes undoes SubBytes; and the example
(42_round_engine.md R108, R109). -/
def Obligations.SubBytesRules : Prop :=
  (∀ (s : Matrix) (r c : Fin 4), (subBytes s).at r c = SBOX (s.at r c)) ∧
  store (subBytes (load (blockOfBus 0x00102030405060708090a0b0c0d0e0f0))) =
    blockOfBus 0x63cab7040953d051cd60e0e7ba70e18c ∧
  (∀ (s : Matrix) (r c : Fin 4), (invSubBytes s).at r c = INV_SBOX (s.at r c)) ∧
  ∀ s : Matrix, invSubBytes (subBytes s) = s

/-- PH in the response cycle, which every command's meaning answers: `resp_valid` is 1, `cmd_ready` is 0, and PH still
names the command, or ERR with the fault it raised, until the cycle ends. That PH carries the sampled operand or the fault
is log 7, and that it returns to IDLE only after the response cycle is the model's reading of R73, log 18
(10_state.md R24; 30_encoding.md R73). -/
def Obligations.ResponseCyclePhase : Prop :=
  (∀ i s t, exec i s = .next t → t.respValid = true ∧ cmdReady t = false) ∧
  (∀ key s t, exec (.kexp key) s = .next t → t.ph = .kexp) ∧
  (∀ b s t, s.kv = true → exec (.enc b) s = .next t → t.ph = .enc) ∧
  (∀ b s t, s.kv = true → exec (.dec b) s = .next t → t.ph = .dec) ∧
  (∀ (n : BitVec 4) s t, n.toNat ≤ 10 → s.kv = true → exec (.rdrk n) s = .next t → t.ph = .rdrk n) ∧
  (∀ a b s t, exec (.gfmul a b) s = .next t → t.ph = .gfmul a b) ∧
  (∀ i s t, s.kv = false → i.wf = true → (∀ k, i ≠ .kexp k) → (∀ a b, i ≠ .gfmul a b) → exec i s = .next t →
    t.ph = .err .noKey) ∧
  ∀ cmd din s t e, decode cmd din = .error e → runWord cmd din s = .next t → t.ph = .err .illegalCommand
end

