-- ==== Sys2Proof/Laws/Bytes.lean ====
section
/-! SUPPORT. The small lemmas of sequences of bytes and of the sub-operations: each read at one place, and equality place
by place. -/

namespace Sys2Proof.Machine

/-! ### Sequences -/

@[simp] theorem get_ofFn {n : Nat} {α : Type} (f : Fin n → α) (i : Fin n) : (Vector.ofFn f).get i = f i := by
  obtain ⟨i, hi⟩ := i
  exact Vector.getElem_ofFn hi

theorem vector_ext {n : Nat} {α : Type} {a b : Vector α n} (h : ∀ i : Fin n, a.get i = b.get i) : a = b :=
  Vector.ext fun i hi => h ⟨i, hi⟩

@[simp] theorem at_ofFn (f : Fin 4 → Fin 4 → Byte) (r c : Fin 4) : (Matrix.ofFn f).at r c = f r c := by
  simp only [Matrix.at, Matrix.ofFn, get_ofFn]

theorem matrix_ext {a b : Matrix} (h : ∀ r c, a.at r c = b.at r c) : a = b :=
  vector_ext fun r => vector_ext fun c => h r c

@[simp] theorem xor_get (a b : Word) (k : Fin 4) : (Word.xor a b).get k = a.get k ^^^ b.get k := get_ofFn _ _

/-! ### The key scheduler -/

@[simp] theorem rotWord_get (t : Word) (k : Fin 4) : (rotWord t).get k = t.get (k + 1) := get_ofFn _ _

@[simp] theorem subWord_get (t : Word) (k : Fin 4) : (subWord t).get k = SBOX (t.get k) := get_ofFn _ _

@[simp] theorem addRcon_get (t : Word) (j : Nat) (k : Fin 4) :
    (addRcon t j).get k = if k = 0 then t.get k ^^^ rcon j else t.get k := get_ofFn _ _

@[simp] theorem keyWord_get (key : Block) (i k : Fin 4) :
    (keyWord key i).get k = key.get ⟨4 * i.val + k.val, by omega⟩ := get_ofFn _ _

@[simp] theorem roundWords_get (rk : Schedule) (n : Fin 11) (c : Fin 4) :
    (roundWords rk n).get c = rk.get ⟨4 * n.val + c.val, by omega⟩ := get_ofFn _ _

@[simp] theorem roundBytes_get (k : RoundWords) (i : Fin 16) :
    (roundBytes k).get i = (k.get ⟨i.val / 4, by omega⟩).get ⟨i.val % 4, by omega⟩ := get_ofFn _ _

/-! ### The round engine -/

@[simp] theorem load_at (b : Block) (r c : Fin 4) : (load b).at r c = b.get ⟨r.val + 4 * c.val, by omega⟩ :=
  at_ofFn _ _ _

@[simp] theorem store_get (s : Matrix) (i : Fin 16) :
    (store s).get i = s.at ⟨i.val % 4, by omega⟩ ⟨i.val / 4, by omega⟩ := get_ofFn _ _

@[simp] theorem addRoundKey_at (k : RoundWords) (s : Matrix) (r c : Fin 4) :
    (addRoundKey k s).at r c = s.at r c ^^^ (k.get c).get r := at_ofFn _ _ _

@[simp] theorem subBytes_at (s : Matrix) (r c : Fin 4) : (subBytes s).at r c = SBOX (s.at r c) := at_ofFn _ _ _

@[simp] theorem invSubBytes_at (s : Matrix) (r c : Fin 4) : (invSubBytes s).at r c = INV_SBOX (s.at r c) :=
  at_ofFn _ _ _

@[simp] theorem shiftRows_at (s : Matrix) (r c : Fin 4) : (shiftRows s).at r c = s.at r (c + r) := at_ofFn _ _ _

@[simp] theorem invShiftRows_at (s : Matrix) (r c : Fin 4) : (invShiftRows s).at r c = s.at r (c - r) := at_ofFn _ _ _

@[simp] theorem column_get (s : Matrix) (c r : Fin 4) : (column s c).get r = s.at r c := get_ofFn _ _

@[simp] theorem mixcol_get (q a : Word) (k : Fin 4) : (mixcol q a).get k = mixcolByte q a k := get_ofFn _ _

@[simp] theorem mixWith_at (q : Word) (s : Matrix) (r c : Fin 4) :
    (mixWith q s).at r c = mixcolByte q (column s c) r := at_ofFn _ _ _

/-! ### The multiplier -/

/-- `gfmul` is the two loops of 40_gf_arithmetic.md R81. -/
theorem gfmul_eq (a b : Byte) : gfmul a b = polyReduce (polyMul a b) := by
  simp only [gfmul, GFTAB]
  rw [show (a ++ b).extractLsb' 8 8 = a from BitVec.extractLsb'_append_eq_left,
    show (a ++ b).extractLsb' 0 8 = b from BitVec.extractLsb'_append_eq_right]

/-- Two conditional XORs with the same value are one, under the exclusive or of their conditions. -/
theorem xor_ifs {w : Nat} (x y : Bool) (p q v : BitVec w) :
    (if (x ^^ y) = true then p ^^^ q ^^^ v else p ^^^ q) =
      (if x = true then p ^^^ v else p) ^^^ (if y = true then q ^^^ v else q) := by
  have e1 : p ^^^ v ^^^ (q ^^^ v) = p ^^^ q := by
    rw [BitVec.xor_assoc, BitVec.xor_comm q v, ← BitVec.xor_assoc v v q, BitVec.xor_self, BitVec.zero_xor]
  have e2 : p ^^^ v ^^^ q = p ^^^ q ^^^ v := by rw [BitVec.xor_assoc, BitVec.xor_comm v q, ← BitVec.xor_assoc]
  cases x <;> cases y <;> simp [e1, e2, BitVec.xor_assoc]

theorem polyMulFold_xor (a b c : Byte) (l : List Nat) (p q : BitVec 15) :
    l.foldl (fun p i => if (b ^^^ c).getLsbD i then p ^^^ (a.setWidth 15 <<< i) else p) (p ^^^ q) =
      l.foldl (fun p i => if b.getLsbD i then p ^^^ (a.setWidth 15 <<< i) else p) p ^^^
        l.foldl (fun p i => if c.getLsbD i then p ^^^ (a.setWidth 15 <<< i) else p) q := by
  induction l generalizing p q with
  | nil => rfl
  | cons i l ih =>
    simp only [List.foldl_cons]
    rw [← ih, BitVec.getLsbD_xor, xor_ifs]

/-- The carry-less product distributes over XOR. -/
theorem polyMul_xor (a b c : Byte) : polyMul a (b ^^^ c) = polyMul a b ^^^ polyMul a c :=
  polyMulFold_xor a b c _ 0 0

theorem polyReduceFold_xor (l : List Nat) (p q : BitVec 15) :
    l.foldl (fun p i => if p.getLsbD i then p ^^^ (0x11b#15 <<< (i - 8)) else p) (p ^^^ q) =
      l.foldl (fun p i => if p.getLsbD i then p ^^^ (0x11b#15 <<< (i - 8)) else p) p ^^^
        l.foldl (fun p i => if p.getLsbD i then p ^^^ (0x11b#15 <<< (i - 8)) else p) q := by
  induction l generalizing p q with
  | nil => rfl
  | cons i l ih =>
    simp only [List.foldl_cons]
    rw [← ih, BitVec.getLsbD_xor, xor_ifs]

/-- Reduction distributes over XOR. -/
theorem polyReduce_xor (p q : BitVec 15) : polyReduce (p ^^^ q) = polyReduce p ^^^ polyReduce q := by
  simp only [polyReduce]
  rw [polyReduceFold_xor, BitVec.setWidth_xor]

end Sys2Proof.Machine
end

