-- ==== Sys2Proof/Laws/State.lean ====
section
/-! SUPPORT. What each update of the state does to each field, and what the state after reset holds. -/

namespace Sys2Proof.Machine

/-! ### respond -/

section respond
variable (ph : Phase) (c : Status) (d : Block) (s : State)

@[simp] theorem respond_rk : (respond ph c d s).rk = s.rk := rfl
@[simp] theorem respond_kv : (respond ph c d s).kv = s.kv := rfl
@[simp] theorem respond_st : (respond ph c d s).st = s.st := rfl
@[simp] theorem respond_ph : (respond ph c d s).ph = ph := rfl
@[simp] theorem respond_wi : (respond ph c d s).wi = s.wi := rfl
@[simp] theorem respond_rnd : (respond ph c d s).rnd = s.rnd := rfl
@[simp] theorem respond_respStatus : (respond ph c d s).respStatus = statusCode c := rfl
@[simp] theorem respond_dout : (respond ph c d s).dout = d := rfl
@[simp] theorem respond_respValid : (respond ph c d s).respValid = true := rfl
@[simp] theorem respond_host : (respond ph c d s).host = s.host := rfl
@[simp] theorem respond_latLeft : (respond ph c d s).latLeft = s.latLeft := rfl
@[simp] theorem respond_draws : (respond ph c d s).draws = s.draws := rfl

end respond

/-! ### raiseFault -/

section raiseFault
variable (f : CommandFault) (s : State)

@[simp] theorem raiseFault_rk : (raiseFault f s).rk = s.rk := rfl
@[simp] theorem raiseFault_kv : (raiseFault f s).kv = s.kv := rfl
@[simp] theorem raiseFault_st : (raiseFault f s).st = s.st := rfl
@[simp] theorem raiseFault_ph : (raiseFault f s).ph = .err f := rfl
@[simp] theorem raiseFault_wi : (raiseFault f s).wi = s.wi := rfl
@[simp] theorem raiseFault_rnd : (raiseFault f s).rnd = s.rnd := rfl
@[simp] theorem raiseFault_respStatus : (raiseFault f s).respStatus = statusCode (faultStatus f) := rfl
@[simp] theorem raiseFault_dout : (raiseFault f s).dout = Block.zero := rfl
@[simp] theorem raiseFault_respValid : (raiseFault f s).respValid = true := rfl
@[simp] theorem raiseFault_host : (raiseFault f s).host = s.host := rfl
@[simp] theorem raiseFault_latLeft : (raiseFault f s).latLeft = s.latLeft := rfl
@[simp] theorem raiseFault_draws : (raiseFault f s).draws = s.draws := rfl

end raiseFault

/-! ### clearResponse -/

section clearResponse
variable (s : State)

@[simp] theorem clearResponse_rk : (clearResponse s).rk = s.rk := rfl
@[simp] theorem clearResponse_kv : (clearResponse s).kv = s.kv := rfl
@[simp] theorem clearResponse_st : (clearResponse s).st = s.st := rfl
@[simp] theorem clearResponse_ph : (clearResponse s).ph = s.ph := rfl
@[simp] theorem clearResponse_wi : (clearResponse s).wi = s.wi := rfl
@[simp] theorem clearResponse_rnd : (clearResponse s).rnd = s.rnd := rfl
@[simp] theorem clearResponse_respStatus : (clearResponse s).respStatus = Config.freeStatus s.draws := rfl
@[simp] theorem clearResponse_dout : (clearResponse s).dout = Config.freeDout s.draws := rfl
@[simp] theorem clearResponse_respValid : (clearResponse s).respValid = false := rfl
@[simp] theorem clearResponse_host : (clearResponse s).host = s.host := rfl
@[simp] theorem clearResponse_latLeft : (clearResponse s).latLeft = s.latLeft := rfl
@[simp] theorem clearResponse_draws : (clearResponse s).draws = s.draws + 1 := rfl

end clearResponse

/-! ### releaseSequencer -/

section releaseSequencer
variable (s : State)

@[simp] theorem releaseSequencer_rk : (releaseSequencer s).rk = s.rk := rfl
@[simp] theorem releaseSequencer_kv : (releaseSequencer s).kv = s.kv := rfl
@[simp] theorem releaseSequencer_st : (releaseSequencer s).st = Config.freeST s.draws := rfl
@[simp] theorem releaseSequencer_ph : (releaseSequencer s).ph = s.ph := rfl
@[simp] theorem releaseSequencer_wi : (releaseSequencer s).wi = Config.freeWI s.draws := rfl
@[simp] theorem releaseSequencer_rnd : (releaseSequencer s).rnd = Config.freeRND s.draws := rfl
@[simp] theorem releaseSequencer_respStatus : (releaseSequencer s).respStatus = s.respStatus := rfl
@[simp] theorem releaseSequencer_dout : (releaseSequencer s).dout = s.dout := rfl
@[simp] theorem releaseSequencer_respValid : (releaseSequencer s).respValid = s.respValid := rfl
@[simp] theorem releaseSequencer_host : (releaseSequencer s).host = s.host := rfl
@[simp] theorem releaseSequencer_latLeft : (releaseSequencer s).latLeft = s.latLeft := rfl
@[simp] theorem releaseSequencer_draws : (releaseSequencer s).draws = s.draws + 1 := rfl

end releaseSequencer

/-! ### endResponse -/

section endResponse
variable (s : State)

@[simp] theorem endResponse_rk : (endResponse s).rk = s.rk := rfl
@[simp] theorem endResponse_kv : (endResponse s).kv = s.kv := rfl
@[simp] theorem endResponse_st : (endResponse s).st = Config.freeST s.draws := rfl
@[simp] theorem endResponse_ph : (endResponse s).ph = .idle := rfl
@[simp] theorem endResponse_wi : (endResponse s).wi = Config.freeWI s.draws := rfl
@[simp] theorem endResponse_rnd : (endResponse s).rnd = Config.freeRND s.draws := rfl
@[simp] theorem endResponse_respStatus : (endResponse s).respStatus = Config.freeStatus (s.draws + 1) := rfl
@[simp] theorem endResponse_dout : (endResponse s).dout = Config.freeDout (s.draws + 1) := rfl
@[simp] theorem endResponse_respValid : (endResponse s).respValid = false := rfl
@[simp] theorem endResponse_host : (endResponse s).host = s.host := rfl
@[simp] theorem endResponse_latLeft : (endResponse s).latLeft = s.latLeft := rfl
@[simp] theorem endResponse_draws : (endResponse s).draws = s.draws + 1 + 1 := rfl

end endResponse

/-! ### resetEdge -/

section resetEdge
variable (s : State)

@[simp] theorem resetEdge_rk : (resetEdge s).rk = [] := rfl
@[simp] theorem resetEdge_kv : (resetEdge s).kv = false := rfl
@[simp] theorem resetEdge_st : (resetEdge s).st = Config.freeST s.draws := rfl
@[simp] theorem resetEdge_ph : (resetEdge s).ph = .idle := rfl
@[simp] theorem resetEdge_wi : (resetEdge s).wi = Config.freeWI s.draws := rfl
@[simp] theorem resetEdge_rnd : (resetEdge s).rnd = Config.freeRND s.draws := rfl
@[simp] theorem resetEdge_respStatus : (resetEdge s).respStatus = Config.freeStatus (s.draws + 1) := rfl
@[simp] theorem resetEdge_dout : (resetEdge s).dout = Config.freeDout (s.draws + 1) := rfl
@[simp] theorem resetEdge_respValid : (resetEdge s).respValid = false := rfl
@[simp] theorem resetEdge_host : (resetEdge s).host = s.host := rfl
@[simp] theorem resetEdge_latLeft : (resetEdge s).latLeft = s.latLeft := rfl
@[simp] theorem resetEdge_draws : (resetEdge s).draws = s.draws + 1 + 1 := rfl

end resetEdge

/-! ### clearKV -/

section clearKV
variable (s : State)

@[simp] theorem clearKV_rk : (clearKV s).rk = s.rk := rfl
@[simp] theorem clearKV_kv : (clearKV s).kv = false := rfl
@[simp] theorem clearKV_st : (clearKV s).st = s.st := rfl
@[simp] theorem clearKV_ph : (clearKV s).ph = s.ph := rfl
@[simp] theorem clearKV_wi : (clearKV s).wi = s.wi := rfl
@[simp] theorem clearKV_rnd : (clearKV s).rnd = s.rnd := rfl
@[simp] theorem clearKV_respStatus : (clearKV s).respStatus = s.respStatus := rfl
@[simp] theorem clearKV_dout : (clearKV s).dout = s.dout := rfl
@[simp] theorem clearKV_respValid : (clearKV s).respValid = s.respValid := rfl
@[simp] theorem clearKV_host : (clearKV s).host = s.host := rfl
@[simp] theorem clearKV_latLeft : (clearKV s).latLeft = s.latLeft := rfl
@[simp] theorem clearKV_draws : (clearKV s).draws = s.draws := rfl

end clearKV

/-! ### setKV -/

section setKV
variable (s : State)

@[simp] theorem setKV_rk : (setKV s).rk = s.rk := rfl
@[simp] theorem setKV_kv : (setKV s).kv = true := rfl
@[simp] theorem setKV_st : (setKV s).st = s.st := rfl
@[simp] theorem setKV_ph : (setKV s).ph = s.ph := rfl
@[simp] theorem setKV_wi : (setKV s).wi = s.wi := rfl
@[simp] theorem setKV_rnd : (setKV s).rnd = s.rnd := rfl
@[simp] theorem setKV_respStatus : (setKV s).respStatus = s.respStatus := rfl
@[simp] theorem setKV_dout : (setKV s).dout = s.dout := rfl
@[simp] theorem setKV_respValid : (setKV s).respValid = s.respValid := rfl
@[simp] theorem setKV_host : (setKV s).host = s.host := rfl
@[simp] theorem setKV_latLeft : (setKV s).latLeft = s.latLeft := rfl
@[simp] theorem setKV_draws : (setKV s).draws = s.draws := rfl

end setKV

/-! ### The state after reset -/

@[simp] theorem reset_rk : State.reset.rk = [] := rfl
@[simp] theorem reset_kv : State.reset.kv = false := rfl
@[simp] theorem reset_ph : State.reset.ph = .idle := rfl
@[simp] theorem reset_respValid : State.reset.respValid = false := rfl
@[simp] theorem reset_host : State.reset.host = [] := rfl

/-! ### Responses and pins -/

@[simp] theorem response_respond (ph : Phase) (c : Status) (d : Block) (s : State) :
    response (respond ph c d s) = some (statusCode c, d) := rfl

@[simp] theorem response_raiseFault (f : CommandFault) (s : State) :
    response (raiseFault f s) = some (statusCode (faultStatus f), Block.zero) := rfl

@[simp] theorem response_endResponse (s : State) : response (endResponse s) = none := rfl

@[simp] theorem response_resetEdge (s : State) : response (resetEdge s) = none := rfl

theorem cmdReady_iff (s : State) : cmdReady s = true ↔ s.ph = .idle := by simp [cmdReady]

end Sys2Proof.Machine
end

