-- ==== Sys2Proof/Laws/Commands.lean ====
section
/-! SUPPORT. What each command's meaning can answer, and when it answers what. -/

namespace Sys2Proof.Machine

theorem legalRoundKey_iff (n : BitVec 4) : legalRoundKey n = true ↔ n.toNat ≤ 10 := by simp [legalRoundKey]

/-- A command faults in exactly the cases of 60_exceptions.md R131 and R132. -/
theorem commandFault_cases (i : Instr) (s : State) :
    (commandFault i s = none ∧ i.wf = true ∧ ((∃ k, i = .kexp k) ∨ (∃ a b, i = .gfmul a b) ∨ s.kv = true)) ∨
    (commandFault i s = some .noKey ∧ i.wf = true ∧ s.kv = false ∧ (∀ k, i ≠ .kexp k) ∧ ∀ a b, i ≠ .gfmul a b) ∨
    (commandFault i s = some .illegalCommand ∧ i.wf = false) := by
  cases i with
  | rdrk n => cases h : legalRoundKey n <;> cases h' : s.kv <;> simp [commandFault, Instr.wf, h, h']
  | _ => cases h : s.kv <;> simp [commandFault, Instr.wf, h]

theorem exec_kexp (key : Block) (s : State) :
    exec (.kexp key) s =
      .next (respond .kexp .ok Block.zero (setKV { s with rk := scheduleMemory (expand key), wi := 43 })) := rfl

theorem exec_gfmul (a b : Byte) (s : State) :
    exec (.gfmul a b) s = .next (respond (.gfmul a b) .ok (productBlock (gfmul a b)) s) := rfl

/-- A command that raises a fault answers with the fault's response and changes nothing else (60_exceptions.md R140). -/
theorem exec_of_fault {i : Instr} {s : State} {f : CommandFault} (h : commandFault i s = some f) :
    exec i s = .next (raiseFault f s) := by
  cases i with
  | kexp k => simp [commandFault] at h
  | gfmul a b => simp [commandFault] at h
  | enc b => simp only [exec, execEnc, h]
  | dec b => simp only [exec, execDec, h]
  | rdrk n => simp only [exec, execRdrk, h]

theorem exec_enc_of_key {block : Block} {s : State} {rk : Schedule} (hk : s.kv = true) (hr : readSchedule s.rk = .ok rk) :
    exec (.enc block) s =
      .next (respond .enc .ok (cipher rk block) { s with st := cipherState rk block, rnd := 10 }) := by
  simp [exec, execEnc, commandFault, hk, hr]

theorem exec_dec_of_key {block : Block} {s : State} {rk : Schedule} (hk : s.kv = true) (hr : readSchedule s.rk = .ok rk) :
    exec (.dec block) s =
      .next (respond .dec .ok (invcipher rk block) { s with st := invcipherState rk block, rnd := 0 }) := by
  simp [exec, execDec, commandFault, hk, hr]

theorem exec_rdrk_of_key {n : BitVec 4} {s : State} {k : RoundWords} (hk : s.kv = true) (hn : n.toNat ≤ 10)
    (hr : readRound s.rk n.toNat = .ok k) : exec (.rdrk n) s = .next (respond (.rdrk n) .ok (roundBytes k) s) := by
  simp [exec, execRdrk, commandFault, legalRoundKey, hk, hn, hr]

/-- Everything a command can answer with a next state (60_exceptions.md R147). -/
theorem exec_next_cases {i : Instr} {s t : State} (h : exec i s = .next t) :
    (∃ f, commandFault i s = some f ∧ t = raiseFault f s) ∨
    (∃ key, i = .kexp key ∧
      t = respond .kexp .ok Block.zero (setKV { s with rk := scheduleMemory (expand key), wi := 43 })) ∨
    (∃ block rk, i = .enc block ∧ s.kv = true ∧ readSchedule s.rk = .ok rk ∧
      t = respond .enc .ok (cipher rk block) { s with st := cipherState rk block, rnd := 10 }) ∨
    (∃ block rk, i = .dec block ∧ s.kv = true ∧ readSchedule s.rk = .ok rk ∧
      t = respond .dec .ok (invcipher rk block) { s with st := invcipherState rk block, rnd := 0 }) ∨
    (∃ n k, i = .rdrk n ∧ s.kv = true ∧ n.toNat ≤ 10 ∧ readRound s.rk n.toNat = .ok k ∧
      t = respond (.rdrk n) .ok (roundBytes k) s) ∨
    (∃ a b, i = .gfmul a b ∧ t = respond (.gfmul a b) .ok (productBlock (gfmul a b)) s) := by
  cases hf : commandFault i s with
  | some f =>
    rw [exec_of_fault hf] at h
    cases h
    exact .inl ⟨f, rfl, rfl⟩
  | none =>
    cases i with
    | kexp key =>
      rw [exec_kexp, Host.Outcome.next.injEq] at h
      exact .inr (.inl ⟨key, rfl, h.symm⟩)
    | gfmul a b =>
      rw [exec_gfmul, Host.Outcome.next.injEq] at h
      exact .inr (.inr (.inr (.inr (.inr ⟨a, b, rfl, h.symm⟩))))
    | enc block =>
      simp only [exec, execEnc, hf] at h
      have hk : s.kv = true := by by_contra c; simp [commandFault, c] at hf
      cases hr : readSchedule s.rk with
      | error e => simp [hr] at h
      | ok rk => simp only [hr, Host.Outcome.next.injEq] at h; exact .inr (.inr (.inl ⟨block, rk, rfl, hk, rfl, h.symm⟩))
    | dec block =>
      simp only [exec, execDec, hf] at h
      have hk : s.kv = true := by by_contra c; simp [commandFault, c] at hf
      cases hr : readSchedule s.rk with
      | error e => simp [hr] at h
      | ok rk => simp only [hr, Host.Outcome.next.injEq] at h; exact .inr (.inr (.inr (.inl ⟨block, rk, rfl, hk, rfl, h.symm⟩)))
    | rdrk n =>
      simp only [exec, execRdrk, hf] at h
      have hn : n.toNat ≤ 10 := by
        by_contra c
        simp [commandFault, legalRoundKey, c] at hf
      have hk : s.kv = true := by by_contra c; simp [commandFault, legalRoundKey, hn, c] at hf
      cases hr : readRound s.rk n.toNat with
      | error e => simp [hr] at h
      | ok k => simp only [hr, Host.Outcome.next.injEq] at h; exact .inr (.inr (.inr (.inr (.inl ⟨n, k, rfl, hk, hn, hr, h.symm⟩))))

end Sys2Proof.Machine
end

