-- ==== Sys2Proof/Laws/Clock.lean ====
section
/-! SUPPORT. What a clock edge and a step can do: one inversion lemma per operation of Machine/Clock.lean. -/

namespace Sys2Proof.Machine

/-- What a step of a micro-sequence, not the last, can do. -/
theorem microStep_cases {s t : State} (h : microStep s = .ok t) :
    (s.ph = .kexp ∧ ∃ rk, produceWord s = .ok rk ∧ t = { s with rk := rk, wi := s.wi + 1 }) ∨
    (s.ph = .enc ∧ ∃ st, transformRound encRound s = .ok st ∧ t = { s with st := st, rnd := s.rnd + 1 }) ∨
    (s.ph = .dec ∧ ∃ st, transformRound decRound s = .ok st ∧ t = { s with st := st, rnd := s.rnd - 1 }) ∨
    (s.ph ≠ .kexp ∧ s.ph ≠ .enc ∧ s.ph ≠ .dec ∧ t = s) := by
  unfold microStep at h
  split at h
  · rename_i hp
    cases hr : produceWord s with
    | error e => simp [hr, bind, Except.bind] at h
    | ok rk =>
      simp only [hr, bind, Except.bind, pure, Except.pure, Except.ok.injEq] at h
      exact .inl ⟨hp, rk, rfl, h.symm⟩
  · rename_i hp
    cases hr : transformRound encRound s with
    | error e => simp [hr, bind, Except.bind] at h
    | ok st =>
      simp only [hr, bind, Except.bind, pure, Except.pure, Except.ok.injEq] at h
      exact .inr (.inl ⟨hp, st, rfl, h.symm⟩)
  · rename_i hp
    cases hr : transformRound decRound s with
    | error e => simp [hr, bind, Except.bind] at h
    | ok st =>
      simp only [hr, bind, Except.bind, pure, Except.pure, Except.ok.injEq] at h
      exact .inr (.inr (.inl ⟨hp, st, rfl, h.symm⟩))
  all_goals
    rename_i hp
    simp only [Except.ok.injEq] at h
    exact .inr (.inr (.inr ⟨by simp [hp], by simp [hp], by simp [hp], h.symm⟩))

/-- What the last step of a command can do. -/
theorem lastStep_cases {s t : State} (h : lastStep s = .ok t) :
    (s.ph = .idle ∧ t = s) ∨
    (s.ph = .kexp ∧ ∃ rk, produceWord s = .ok rk ∧ t = respond .kexp .ok Block.zero (setKV { s with rk := rk })) ∨
    (s.ph = .enc ∧ ∃ st, transformRound encRound s = .ok st ∧ t = respond .enc .ok (store st) { s with st := st }) ∨
    (s.ph = .dec ∧ ∃ st, transformRound decRound s = .ok st ∧ t = respond .dec .ok (store st) { s with st := st }) ∨
    (∃ n k, s.ph = .rdrk n ∧ readRound s.rk n.toNat = .ok k ∧ t = respond (.rdrk n) .ok (roundBytes k) s) ∨
    (∃ a b, s.ph = .gfmul a b ∧ t = respond (.gfmul a b) .ok (productBlock (gfmul a b)) s) ∨
    (∃ f, s.ph = .err f ∧ t = raiseFault f s) := by
  unfold lastStep at h
  split at h
  · rename_i hp; cases h; exact .inl ⟨hp, rfl⟩
  · rename_i hp
    cases hr : produceWord s with
    | error e => simp [hr, bind, Except.bind] at h
    | ok rk =>
      simp only [hr, bind, Except.bind, pure, Except.pure, Except.ok.injEq] at h
      exact .inr (.inl ⟨hp, rk, rfl, h.symm⟩)
  · rename_i hp
    cases hr : transformRound encRound s with
    | error e => simp [hr, bind, Except.bind] at h
    | ok st =>
      simp only [hr, bind, Except.bind, pure, Except.pure, Except.ok.injEq] at h
      exact .inr (.inr (.inl ⟨hp, st, rfl, h.symm⟩))
  · rename_i hp
    cases hr : transformRound decRound s with
    | error e => simp [hr, bind, Except.bind] at h
    | ok st =>
      simp only [hr, bind, Except.bind, pure, Except.pure, Except.ok.injEq] at h
      exact .inr (.inr (.inr (.inl ⟨hp, st, rfl, h.symm⟩)))
  · rename_i n hp
    cases hr : readRound s.rk n.toNat with
    | error e => simp [hr, bind, Except.bind] at h
    | ok k =>
      simp only [hr, bind, Except.bind, pure, Except.pure, Except.ok.injEq] at h
      exact .inr (.inr (.inr (.inr (.inl ⟨n, k, hp, hr, h.symm⟩))))
  · rename_i a b hp; cases h; exact .inr (.inr (.inr (.inr (.inr (.inl ⟨a, b, hp, rfl⟩)))))
  · rename_i f hp; cases h; exact .inr (.inr (.inr (.inr (.inr (.inr ⟨f, hp, rfl⟩)))))

/-- What every step of a micro-sequence keeps, `advance` keeps. -/
theorem advance_keeps {P : State → Prop} (hm : ∀ s t, atLastStep s = false → microStep s = .ok t → P s → P t)
    {k : Nat} {s t : State} (h : advance k s = .ok t) (hs : P s) : P t := by
  induction k generalizing s with
  | zero => cases h; exact hs
  | succ k ih =>
    simp only [advance] at h
    split at h
    · cases h; exact hs
    · rename_i hl
      cases hr : microStep s with
      | error e => simp [hr, bind, Except.bind] at h
      | ok s' =>
        simp only [hr, bind, Except.bind] at h
        exact ih h (hm s s' (by simpa using hl) hr hs)

/-- Finishing is advancing and then the last step. -/
theorem finish_cases {s t : State} (h : finish s = .ok t) : ∃ s', advance 40 s = .ok s' ∧ lastStep s' = .ok t := by
  unfold finish at h
  cases hr : advance 40 s with
  | error e => simp [hr, bind, Except.bind] at h
  | ok s' => exact ⟨s', rfl, by simpa [hr, bind, Except.bind] using h⟩

/-- What the edge of a command in progress can do. -/
theorem workEdge_cases {s t : State} (h : workEdge s = .ok t) :
    (s.latLeft = 0 ∧ finish s = .ok t) ∨
    (s.latLeft ≠ 0 ∧ ∃ s', advance (Config.stepsInCycle s.draws) s = .ok s' ∧
      t = { s' with latLeft := s.latLeft - 1, draws := s.draws + 1 }) := by
  unfold workEdge at h
  split at h
  · exact .inl ⟨‹_›, h⟩
  · cases hr : advance (Config.stepsInCycle s.draws) s with
    | error e => simp [hr, bind, Except.bind] at h
    | ok s' =>
      simp only [hr, bind, Except.bind, pure, Except.pure, Except.ok.injEq] at h
      exact .inr ⟨‹_›, s', rfl, h.symm⟩

/-- What a clock edge can do (30_encoding.md R72, R73; 70_reset_and_hazards.md R151). -/
theorem clockEdge_cases {p : Pins} {s t : State} (h : clockEdge p s = .ok t) :
    (p.rst = true ∧ t = resetEdge s) ∨
    (p.rst = false ∧ s.ph = .idle ∧ p.cmdValid = true ∧ workEdge (accept p.cmd p.din s) = .ok t) ∨
    (p.rst = false ∧ s.ph = .idle ∧ p.cmdValid = false ∧ t = { s with respValid := false }) ∨
    (p.rst = false ∧ s.ph ≠ .idle ∧ s.respValid = true ∧ t = endResponse s) ∨
    (p.rst = false ∧ s.ph ≠ .idle ∧ s.respValid = false ∧ workEdge s = .ok t) := by
  unfold clockEdge at h
  split at h
  · cases h; exact .inl ⟨‹_›, rfl⟩
  · rename_i hr
    split at h
    · split at h
      · exact .inr (.inl ⟨by simpa using hr, ‹_›, ‹_›, h⟩)
      · cases h; rename_i hv; exact .inr (.inr (.inl ⟨by simpa using hr, ‹_›, by simpa using hv, rfl⟩))
    · split at h
      · cases h; exact .inr (.inr (.inr (.inl ⟨by simpa using hr, ‹_›, ‹_›, rfl⟩)))
      · rename_i hv; exact .inr (.inr (.inr (.inr ⟨by simpa using hr, ‹_›, by simpa using hv, h⟩)))

theorem toOutcome_next {r : Except Fault State} {t : State} (h : toOutcome r = .next t) : r = .ok t := by
  cases r with
  | ok s => simpa [toOutcome] using h
  | error e => simp [toOutcome] at h

/-- What a step can do. -/
theorem step_cases {s t : State} (h : step s = .next t) :
    (s.host = [] ∧ clockEdge quietPins s = .ok t) ∨
    (∃ p rest, s.host = .edge p :: rest ∧ clockEdge p { s with host := rest } = .ok t) ∨
    (∃ cmd din rest, s.host = .command cmd din :: rest ∧ s.ph = .idle ∧
      runWord cmd din { s with host := rest } = .next t) ∨
    (∃ cmd din rest, s.host = .command cmd din :: rest ∧ s.ph ≠ .idle ∧ clockEdge (presentPins cmd din) s = .ok t) := by
  unfold step runHost at h
  split at h
  · exact .inl ⟨‹_›, toOutcome_next h⟩
  · rename_i p rest hh; exact .inr (.inl ⟨p, rest, hh, toOutcome_next h⟩)
  · rename_i cmd din rest hh
    split at h
    · exact .inr (.inr (.inl ⟨cmd, din, rest, hh, ‹_›, h⟩))
    · exact .inr (.inr (.inr ⟨cmd, din, rest, hh, ‹_›, toOutcome_next h⟩))

/-- A run starts with a step. -/
theorem run_succ_of_next {s s' : State} (n : Nat) (h : step s = .next s') :
    Host.Core.run Sys2Proof.core (n + 1) s = Host.Core.run Sys2Proof.core n s' := by
  have h' : Sys2Proof.core.step s = .next s' := h
  simp only [Host.Core.run, h']

/-- What running a command word can do. -/
theorem runWord_cases {cmd : BitVec 8} {din : BitVec 128} {s t : State} (h : runWord cmd din s = .next t) :
    (∃ i, decode cmd din = .ok i ∧ exec i s = .next t) ∨
    (∃ e, decode cmd din = .error e ∧ t = raiseFault .illegalCommand s) := by
  unfold runWord at h
  split at h
  · exact .inl ⟨_, ‹_›, h⟩
  · cases h; exact .inr ⟨_, ‹_›, rfl⟩

end Sys2Proof.Machine
end

