-- ==== Sys2Proof/Laws/Memory.lean ====
section
/-! SUPPORT. The laws of the round-key memory: reads after writes by cell and by word, the canonical form, and a memory
that holds a schedule. -/

namespace Sys2Proof.Machine

/-! ### Cells -/

@[simp] theorem readCell_writeCell_same (m : List Host.Cell) (x : Nat) (v : Byte) :
    readCell (writeCell m x v) x = some v := by
  induction m with
  | nil => simp [writeCell, readCell]
  | cons c m ih =>
    obtain ⟨a, b⟩ := c
    simp only [writeCell]
    split
    · simp [readCell]
    · split
      · simp [readCell]
      · rename_i h; simp [readCell, Ne.symm h, ih]

theorem readCell_writeCell_other (m : List Host.Cell) {x y : Nat} (v : Byte) (h : y ≠ x) :
    readCell (writeCell m x v) y = readCell m y := by
  induction m with
  | nil => simp [writeCell, readCell, h.symm]
  | cons c m ih =>
    obtain ⟨a, b⟩ := c
    simp only [writeCell]
    split
    · simp [readCell, h.symm]
    · split
      · rename_i h'; subst h'; simp [readCell, h.symm]
      · simp [readCell, ih]

theorem readCell_writeCell (m : List Host.Cell) (x y : Nat) (v : Byte) :
    readCell (writeCell m x v) y = if y = x then some v else readCell m y := by
  split
  · rename_i h; subst h; simp
  · rename_i h; exact readCell_writeCell_other m v h

/-! ### The canonical form -/

theorem risesFrom_writeCell {lo x : Nat} (m : List Host.Cell) (v : Byte) (h : risesFrom lo m = true) (hx : lo < x) :
    risesFrom lo (writeCell m x v) = true := by
  induction m generalizing lo with
  | nil => simp [writeCell, risesFrom, hx]
  | cons c m ih =>
    obtain ⟨a, b⟩ := c
    simp only [risesFrom, Bool.and_eq_true, decide_eq_true_eq] at h
    simp only [writeCell]
    split
    · rename_i h1; simp [risesFrom, hx, h1, h.2]
    · split
      · rename_i h2; subst h2; simp [risesFrom, hx, h.2]
      · simp [risesFrom, h.1, ih h.2 (by omega : a < x)]

theorem bounded_writeCell {x : Nat} (m : List Host.Cell) (v : Byte) (h : m.all (fun c => decide (c.1 < rkBytes)) = true)
    (hx : x < rkBytes) : (writeCell m x v).all (fun c => decide (c.1 < rkBytes)) = true := by
  induction m with
  | nil => simp [writeCell, hx]
  | cons c m ih =>
    obtain ⟨a, b⟩ := c
    simp only [List.all_cons, Bool.and_eq_true, decide_eq_true_eq] at h
    simp only [writeCell]
    split
    · simp [hx, h.1, h.2]
    · split
      · simp [hx, h.2]
      · simp [h.1, ih h.2]

/-- Writing a cell of RK keeps the canonical form. -/
theorem wf_writeCell {x : Nat} (m : List Host.Cell) (v : Byte) (h : Memory.wf m = true) (hx : x < rkBytes) :
    Memory.wf (writeCell m x v) = true := by
  cases m with
  | nil => simp [writeCell, Memory.wf, risesFrom, hx]
  | cons c m =>
    obtain ⟨a, b⟩ := c
    simp only [Memory.wf, Bool.and_eq_true] at h
    have hb := bounded_writeCell ((a, b) :: m) v h.2 hx
    revert hb
    simp only [writeCell]
    split
    · rename_i h1; intro hb; simp [Memory.wf, risesFrom, h1, h.1, hb]
    · split
      · rename_i h2; intro hb; subst h2; simp [Memory.wf, h.1, hb]
      · rename_i h1 h2
        intro hb
        simp [Memory.wf, risesFrom_writeCell m v h.1 (by omega : a < x), hb]

/-- Writing a word of RK keeps the canonical form. -/
theorem wf_putWord {i : Nat} (m : List Host.Cell) (w : Word) (h : Memory.wf m = true) (hi : i < 44) :
    Memory.wf (putWord m i w) = true := by
  unfold putWord
  repeat' apply wf_writeCell
  all_goals first | exact h | (simp only [rkBytes]; omega)

/-- Writing words of RK keeps the canonical form. -/
theorem wf_putWords {i : Nat} (m : List Host.Cell) (ws : List Word) (h : Memory.wf m = true) (hi : i + ws.length ≤ 44) :
    Memory.wf (putWords m i ws) = true := by
  induction ws generalizing m i with
  | nil => exact h
  | cons w ws ih =>
    simp only [List.length_cons] at hi
    exact ih _ (wf_putWord m w h (by omega)) (by omega)

theorem wf_scheduleMemory (rk : Schedule) : Memory.wf (scheduleMemory rk) = true :=
  by unfold scheduleMemory; exact wf_putWords [] _ rfl (by simp)

theorem writeWord_ok (m : List Host.Cell) {i : Nat} (w : Word) (h : i < 44) : writeWord m i w = .ok (putWord m i w) :=
  if_pos h

/-- The access `RK[i] <- w` keeps the canonical form. -/
theorem wf_writeWord {m m' : List Host.Cell} {i : Nat} {w : Word} (h : Memory.wf m = true)
    (hw : writeWord m i w = .ok m') : Memory.wf m' = true := by
  by_cases hi : i < 44
  · rw [writeWord_ok m w hi, Except.ok.injEq] at hw
    exact hw ▸ wf_putWord m w h hi
  · simp [writeWord, Config.NWORDS, hi] at hw

/-! ### Words -/

/-- A sequence of four is its four entries. -/
theorem vector4_eta {α : Type} (w : Vector α 4) : (⟨#[w.get 0, w.get 1, w.get 2, w.get 3], rfl⟩ : Vector α 4) = w := by
  obtain ⟨⟨l⟩, h⟩ := w
  match l, h with
  | [a, b, c, d], _ => rfl

/-- Four listed bytes are a word. -/
theorem readWord_of_cells {m : List Host.Cell} {i : Nat} {w : Word} (hi : i < 44)
    (h0 : readCell m (4 * i) = some (w.get 0)) (h1 : readCell m (4 * i + 1) = some (w.get 1))
    (h2 : readCell m (4 * i + 2) = some (w.get 2)) (h3 : readCell m (4 * i + 3) = some (w.get 3)) :
    readWord m i = .ok w := by
  simp only [readWord, Config.NWORDS, hi, if_true, h0, h1, h2, h3]
  exact congrArg Except.ok (vector4_eta w)

/-- What each cell holds after a word is written. -/
theorem readCell_putWord (m : List Host.Cell) (i x : Nat) (w : Word) :
    readCell (putWord m i w) x =
      if x = 4 * i then some (w.get 0) else if x = 4 * i + 1 then some (w.get 1)
      else if x = 4 * i + 2 then some (w.get 2) else if x = 4 * i + 3 then some (w.get 3) else readCell m x := by
  simp only [putWord, readCell_writeCell]
  split_ifs <;> first | rfl | omega

/-- A read of RK returns the word last written there (20_memory.md R53). -/
theorem readWord_putWord_same (m : List Host.Cell) {i : Nat} (w : Word) (hi : i < 44) :
    readWord (putWord m i w) i = .ok w := by
  apply readWord_of_cells hi <;> rw [readCell_putWord] <;> simp

/-- A write of RK leaves every other word alone. -/
theorem readWord_putWord_other (m : List Host.Cell) {i j : Nat} (w : Word) (h : j ≠ i) :
    readWord (putWord m i w) j = readWord m j := by
  have hc : ∀ k, k < 4 → readCell (putWord m i w) (4 * j + k) = readCell m (4 * j + k) := by
    intro k hk
    rw [readCell_putWord]
    split_ifs <;> first | rfl | omega
  simp only [readWord, hc 1 (by omega), hc 2 (by omega), hc 3 (by omega)]
  rw [show readCell (putWord m i w) (4 * j) = readCell m (4 * j) from hc 0 (by omega)]

theorem readWord_putWords_below (m : List Host.Cell) {i j : Nat} (ws : List Word) (h : j < i) :
    readWord (putWords m i ws) j = readWord m j := by
  induction ws generalizing m i with
  | nil => rfl
  | cons w ws ih => rw [putWords, ih _ (by omega), readWord_putWord_other m w (by omega)]

/-- The words written in ascending order are the words read back (20_memory.md R58). -/
theorem readWord_putWords (m : List Host.Cell) (i : Nat) (ws : List Word) {k : Nat} (hk : k < ws.length)
    (h : i + k < 44) : readWord (putWords m i ws) (i + k) = .ok ws[k] := by
  induction ws generalizing m i k with
  | nil => simp at hk
  | cons w ws ih =>
    cases k with
    | zero => rw [putWords, readWord_putWords_below _ _ (by omega)]; exact readWord_putWord_same m w h
    | succ k =>
      have := ih (putWord m i w) (i + 1) (k := k) (by simpa using hk) (by omega)
      rw [putWords, show i + (k + 1) = i + 1 + k by omega, this]
      rfl

/-- Writing one word more. -/
theorem putWords_concat (m : List Host.Cell) (i : Nat) (ws : List Word) (w : Word) :
    putWords m i (ws ++ [w]) = putWord (putWords m i ws) (i + ws.length) w := by
  induction ws generalizing m i with
  | nil => rfl
  | cons v ws ih => simp only [List.cons_append, putWords, ih, List.length_cons]; congr 1; omega

/-! ### A memory that holds a schedule -/

theorem readWord_scheduleMemory (rk : Schedule) {i : Nat} (h : i < 44) :
    readWord (scheduleMemory rk) i = .ok rk[i] := by
  have := readWord_putWords [] 0 rk.toList (k := i) (by simpa using h) (by omega)
  simpa [scheduleMemory] using this

/-- The round key read from a memory that holds a schedule is that schedule's (20_memory.md R50). -/
theorem readRound_scheduleMemory (rk : Schedule) (n : Fin 11) :
    readRound (scheduleMemory rk) n.val = .ok (roundWords rk n) := by
  rw [← vector4_eta (roundWords rk n)]
  simp only [readRound, readWord_scheduleMemory rk (show 4 * n.val < 44 by omega),
    readWord_scheduleMemory rk (show 4 * n.val + 1 < 44 by omega),
    readWord_scheduleMemory rk (show 4 * n.val + 2 < 44 by omega),
    readWord_scheduleMemory rk (show 4 * n.val + 3 < 44 by omega)]
  simp [roundWords, Vector.get, bind, Except.bind, pure, Except.pure]
  exact ⟨rfl, rfl, rfl, rfl⟩

theorem readWords_of_words {m : List Host.Cell} {i : Nat} (f : Nat → Word) (k : Nat)
    (h : ∀ j < k, readWord m (i + j) = .ok (f j)) : readWords m i k = .ok (Vector.ofFn fun j : Fin k => f j.val) := by
  induction k with
  | zero => rfl
  | succ k ih =>
    simp only [readWords, ih fun j hj => h j (by omega), h k (by omega), bind, Except.bind, pure, Except.pure]
    rw [Vector.ofFn_succ]
    rfl

/-- The schedule read from a memory that holds one. -/
theorem readSchedule_scheduleMemory (rk : Schedule) : readSchedule (scheduleMemory rk) = .ok rk := by
  have h := readWords_of_words (m := scheduleMemory rk) (i := 0) (fun j => rk.toList.getD j (Vector.replicate 4 0#8)) 44
    fun j hj => by rw [Nat.zero_add, readWord_scheduleMemory rk hj]; simp [hj]
  unfold readSchedule
  exact h.trans (congrArg Except.ok (Vector.ext fun i hi => by simp))

/-- Every byte of the schedule memory (20_memory.md R48, log 14). -/
theorem readCell_scheduleMemory (rk : Schedule) (i : Fin 44) (k : Fin 4) :
    readCell (scheduleMemory rk) (4 * i.val + k.val) = some ((rk.get i).get k) := by
  have h := readWord_scheduleMemory rk i.isLt
  unfold readWord at h
  rw [if_pos (by simp [Config.NWORDS])] at h
  split at h
  · next b0 b1 b2 b3 h0 h1 h2 h3 =>
    simp only [Except.ok.injEq] at h
    have e : rk.get i = #v[b0, b1, b2, b3] := h.symm
    rw [e]
    fin_cases k
    · exact h0
    · exact h1
    · exact h2
    · exact h3
  · simp at h

/-- A memory whose addresses all lie in RK holds nothing past it. -/
theorem readCell_of_bounded (m : List Host.Cell) (h : m.all (fun c => decide (c.1 < rkBytes)) = true) {x : Nat}
    (hx : rkBytes ≤ x) : readCell m x = none := by
  induction m with
  | nil => rfl
  | cons c m ih =>
    simp only [List.all_cons, Bool.and_eq_true, decide_eq_true_eq] at h
    rw [readCell, if_neg (by omega)]
    exact ih h.2

end Sys2Proof.Machine
end

