-- ==== Sys2Proof/Laws/MicroSequence.lean ====
section
/-! SUPPORT. The micro-sequences run to their end, from any point: a KEXP in progress reaches the expanded key, an ENC
or DEC in progress the cipher of its block. -/

namespace Sys2Proof.Machine

/-! ### PH while a command runs -/

theorem begin_ph (i : Instr) (s : State) : (begin i s).ph ≠ .idle := by
  unfold begin
  split
  · simp
  · split <;> simp

theorem beginWord_ph (cmd : BitVec 8) (din : BitVec 128) (s : State) : (beginWord cmd din s).ph ≠ .idle := by
  unfold beginWord
  split
  · exact begin_ph _ _
  · simp

theorem microStep_ph {s t : State} (h : microStep s = .ok t) : t.ph = s.ph := by
  rcases microStep_cases h with ⟨_, _, _, rfl⟩ | ⟨_, _, _, rfl⟩ | ⟨_, _, _, rfl⟩ | ⟨_, _, _, rfl⟩ <;> rfl

theorem advance_ph {k : Nat} {s t : State} (h : advance k s = .ok t) : t.ph = s.ph :=
  advance_keeps (P := fun t => t.ph = s.ph) (fun _ _ _ hm ha => (microStep_ph hm).trans ha) h rfl

theorem lastStep_ph {s t : State} (h : lastStep s = .ok t) : t.ph = s.ph := by
  rcases lastStep_cases h with ⟨_, rfl⟩ | ⟨e, _, _, rfl⟩ | ⟨e, _, _, rfl⟩ | ⟨e, _, _, rfl⟩ | ⟨_, _, e, _, rfl⟩ |
    ⟨_, _, e, rfl⟩ | ⟨_, e, rfl⟩ <;> simp [*]

theorem workEdge_ph {s t : State} (h : workEdge s = .ok t) : t.ph = s.ph := by
  rcases workEdge_cases h with ⟨_, h⟩ | ⟨_, s', hs, rfl⟩
  · obtain ⟨s', h1, h2⟩ := finish_cases h
    rw [lastStep_ph h2, advance_ph h1]
  · show s'.ph = s.ph
    exact advance_ph hs

/-! ### KEXP -/

/-- A KEXP in progress for a key: RK holds the words below WI (20_memory.md R58). -/
structure KexpRunning (key : Block) (s : State) : Prop where
  ph : s.ph = .kexp
  low : 4 ≤ s.wi.toNat
  high : s.wi.toNat ≤ 43
  rk : s.rk = putWords [] 0 (scheduleWords key s.wi.toNat)

theorem scheduleMemory_expand (key : Block) : scheduleMemory (expand key) = putWords [] 0 (scheduleWords key 44) := by
  unfold scheduleMemory expand; rfl

/-- At acceptance RK holds the first four words of the schedule. -/
theorem keyMemory_eq (key : Block) : keyMemory key = putWords [] 0 (scheduleWords key 4) := by
  unfold keyMemory; rfl

theorem scheduleWord_of_le {key : Block} {i : Nat} (h : 4 ≤ i) :
    scheduleWord key i (scheduleWords key i) =
      nextWord i ((scheduleWords key i)[i - 4]'(by rw [scheduleWords_length]; omega))
        ((scheduleWords key i)[i - 1]'(by rw [scheduleWords_length]; omega)) := by
  have hl := scheduleWords_length key i
  unfold scheduleWord
  rw [dif_neg (by omega), List.getD_eq_getElem _ _ (by omega), List.getD_eq_getElem _ _ (by omega)]

/-- The word produced is the schedule's (41_key_scheduler.md R95). -/
theorem KexpRunning.produceWord {key : Block} {s : State} (h : KexpRunning key s) :
    Machine.produceWord s = .ok (putWords [] 0 (scheduleWords key (s.wi.toNat + 1))) := by
  obtain ⟨_, h4, h43, hrk⟩ := h
  generalize hw : s.wi.toNat = i at *
  have hl := scheduleWords_length key i
  have r4 := readWord_putWords [] 0 (scheduleWords key i) (k := i - 4) (by omega) (by omega)
  have r1 := readWord_putWords [] 0 (scheduleWords key i) (k := i - 1) (by omega) (by omega)
  rw [Nat.zero_add] at r4 r1
  unfold Machine.produceWord
  rw [hw, if_pos ⟨h4, h43⟩, hrk, r4, r1]
  simp only [bind, Except.bind]
  rw [writeWord_ok _ _ (by omega), scheduleWords, putWords_concat, Nat.zero_add, scheduleWord_of_le h4]
  exact congrArg Except.ok (congrArg (putWord _ · _) hl.symm)

theorem wi_succ {s : State} (h : s.wi.toNat < 43) : (s.wi + 1).toNat = s.wi.toNat + 1 := by
  rw [BitVec.toNat_add]; simp; omega

theorem wi_ne {s : State} (hp : s.ph = .kexp) (hl : atLastStep s = false) : s.wi.toNat ≠ 43 := by
  have hne : s.wi ≠ 43 := by simpa [atLastStep, hp] using hl
  exact fun e => hne (BitVec.eq_of_toNat_eq (by simpa using e))

/-- The state of a KEXP in progress after one more word. -/
def nextKexp (key : Block) (s : State) : State :=
  { s with rk := putWords [] 0 (scheduleWords key (s.wi.toNat + 1)), wi := s.wi + 1 }

theorem KexpRunning.microStep {key : Block} {s : State} (h : KexpRunning key s) (hl : atLastStep s = false) :
    Machine.microStep s = .ok (nextKexp key s) ∧ KexpRunning key (nextKexp key s) := by
  have hn := wi_ne h.ph hl
  have hh := h.high
  have e := wi_succ (s := s) (by omega)
  have h4 := h.low
  refine ⟨?_, ⟨h.ph, ?_, ?_, ?_⟩⟩
  · simp only [Machine.microStep, h.ph, h.produceWord, bind, Except.bind, pure, Except.pure, nextKexp]
  · simp only [nextKexp, e]; omega
  · simp only [nextKexp, e]; omega
  · simp only [nextKexp, e]

/-- Advancing a KEXP in progress keeps it one and changes only RK and WI. -/
theorem KexpRunning.advance {key : Block} (k : Nat) {s : State} (h : KexpRunning key s) :
    ∃ t, Machine.advance k s = .ok t ∧ KexpRunning key t ∧ t.wi.toNat = min 43 (s.wi.toNat + k) ∧
      t = { s with rk := t.rk, wi := t.wi } := by
  induction k generalizing s with
  | zero => exact ⟨s, rfl, h, by have := h.high; omega, rfl⟩
  | succ k ih =>
    unfold Machine.advance
    by_cases hl : atLastStep s = true
    · rw [if_pos hl]
      have : s.wi = 43 := by simpa [atLastStep, h.ph] using hl
      exact ⟨s, rfl, h, by simp [this], rfl⟩
    · rw [if_neg hl]
      have hl' : atLastStep s = false := by simpa using hl
      obtain ⟨e, hk⟩ := h.microStep hl'
      obtain ⟨t, h1, h2, h3, h4⟩ := ih hk
      have hn := wi_ne h.ph hl'
      have hh := h.high
      refine ⟨t, by rw [e]; exact h1, h2, ?_, by rw [h4]; rfl⟩
      rw [h3, show (nextKexp key s).wi = s.wi + 1 from rfl, wi_succ (by omega)]
      omega

/-- A KEXP in progress, finished (41_key_scheduler.md R98, R99). -/
theorem KexpRunning.finish {key : Block} {s : State} (h : KexpRunning key s) :
    Machine.finish s =
      .ok (respond .kexp .ok Block.zero (setKV { s with rk := scheduleMemory (expand key), wi := 43 })) := by
  obtain ⟨t, h1, h2, h3, h4⟩ := h.advance 40
  have hw : t.wi.toNat = 43 := by have := h.low; omega
  have hw' : t.wi = 43 := BitVec.eq_of_toNat_eq (by simpa using hw)
  unfold Machine.finish
  rw [h1]
  simp only [bind, Except.bind, lastStep, h2.ph, h2.produceWord, pure, Except.pure, hw, scheduleMemory_expand]
  rw [h4]
  simp [hw', h.ph]

/-! ### ENC and DEC -/

/-- RK holds a schedule and RND is a round number. -/
structure TransformRunning (rk : Schedule) (s : State) : Prop where
  rk : s.rk = scheduleMemory rk
  rnd : s.rnd.toNat ≤ 10

/-- The round number as an index of round keys. -/
def TransformRunning.round {rk : Schedule} {s : State} (h : TransformRunning rk s) : Fin 11 :=
  ⟨s.rnd.toNat, by have := h.rnd; omega⟩

theorem TransformRunning.transformRound {rk : Schedule} {s : State} (h : TransformRunning rk s)
    (f : Nat → RoundWords → Matrix → Matrix) :
    Machine.transformRound f s = .ok (f s.rnd.toNat (roundWords rk h.round) s.st) := by
  unfold Machine.transformRound
  rw [if_pos h.rnd, h.rk, show s.rnd.toNat = h.round.val from rfl, readRound_scheduleMemory rk h.round]
  rfl

/-- The rounds of ENC from round `r` on, `k` of them. -/
def encFrom (rk : Schedule) : (k r : Nat) → Matrix → Matrix
  | 0, _, s => s
  | k + 1, r, s => if h : r < 11 then encFrom rk k (r + 1) (encRound r (roundWords rk ⟨r, h⟩) s) else s

/-- The rounds of DEC from round `r` down, `k` of them. -/
def decFrom (rk : Schedule) : (k r : Nat) → Matrix → Matrix
  | 0, _, s => s
  | k + 1, r, s => if h : r < 11 then decFrom rk k (r - 1) (decRound r (roundWords rk ⟨r, h⟩) s) else s

theorem encFrom_load (rk : Schedule) (b : Block) : encFrom rk 11 0 (load b) = cipherState rk b := rfl

theorem decFrom_load (rk : Schedule) (b : Block) : decFrom rk 11 10 (load b) = invcipherState rk b := rfl

theorem rnd_ne {s : State} {v : BitVec 4} (h : s.rnd ≠ v) : s.rnd.toNat ≠ v.toNat :=
  fun e => h (BitVec.eq_of_toNat_eq e)

/-- Advancing an ENC in progress leaves the rest of the rounds to do and changes only ST and RND. -/
theorem TransformRunning.advance_enc {rk : Schedule} (k : Nat) {s : State} (h : TransformRunning rk s)
    (hp : s.ph = .enc) :
    ∃ t, advance k s = .ok t ∧ TransformRunning rk t ∧ t.rnd.toNat = min 10 (s.rnd.toNat + k) ∧
      encFrom rk (11 - t.rnd.toNat) t.rnd.toNat t.st = encFrom rk (11 - s.rnd.toNat) s.rnd.toNat s.st ∧
      t = { s with st := t.st, rnd := t.rnd } := by
  induction k generalizing s with
  | zero => exact ⟨s, rfl, h, by have := h.rnd; omega, rfl, rfl⟩
  | succ k ih =>
    unfold advance
    by_cases hl : atLastStep s = true
    · rw [if_pos hl]
      have : s.rnd = 10 := by simpa [atLastStep, hp] using hl
      exact ⟨s, rfl, h, by simp [this], rfl, rfl⟩
    · rw [if_neg hl]
      have hn : s.rnd.toNat ≠ 10 := rnd_ne (v := 10) (by simpa [atLastStep, hp] using hl)
      have hr := h.rnd
      have e : (s.rnd + 1).toNat = s.rnd.toNat + 1 := by rw [BitVec.toNat_add]; simp; omega
      have hm : microStep s =
          .ok { s with st := encRound s.rnd.toNat (roundWords rk h.round) s.st, rnd := s.rnd + 1 } := by
        simp only [microStep, hp, h.transformRound, bind, Except.bind, pure, Except.pure]
      rw [hm]
      obtain ⟨t, h1, h2, h4, h5, h6⟩ := ih (s := { s with
        st := encRound s.rnd.toNat (roundWords rk h.round) s.st, rnd := s.rnd + 1 }) ⟨h.rk, by simp only [e]; omega⟩ hp
      refine ⟨t, h1, h2, by rw [h4]; simp only [e]; omega, ?_, by rw [h6]⟩
      rw [h5]
      simp only [e]
      rw [show 11 - s.rnd.toNat = (11 - (s.rnd.toNat + 1)) + 1 by omega]
      conv_rhs => rw [encFrom, dif_pos (by omega : s.rnd.toNat < 11)]
      rfl

/-- An ENC in progress, finished: the cipher of the block it was accepted with (42_round_engine.md R117, R119). -/
theorem TransformRunning.finish_enc {rk : Schedule} {s : State} {b : Block} (h : TransformRunning rk s)
    (hp : s.ph = .enc) (hc : encFrom rk (11 - s.rnd.toNat) s.rnd.toNat s.st = cipherState rk b) :
    finish s = .ok (respond .enc .ok (cipher rk b) { s with st := cipherState rk b, rnd := 10 }) := by
  obtain ⟨t, h1, h2, h4, h5, h6⟩ := h.advance_enc 40 hp
  have hw : t.rnd.toNat = 10 := by omega
  have hw' : t.rnd = 10 := BitVec.eq_of_toNat_eq (by simpa using hw)
  have h3 : t.ph = .enc := by rw [h6]; exact hp
  have e : encRound t.rnd.toNat (roundWords rk h2.round) t.st = cipherState rk b := by
    rw [← hc, ← h5]
    have hf : h2.round = 10 := Fin.ext hw
    rw [hf]
    simp only [hw]
    rfl
  unfold finish
  rw [h1]
  simp only [bind, Except.bind, lastStep, h3, h2.transformRound, pure, Except.pure, e]
  rw [h6]
  simp [hw', cipher, hp]

/-- Advancing a DEC in progress leaves the rest of the rounds to do and changes only ST and RND. -/
theorem TransformRunning.advance_dec {rk : Schedule} (k : Nat) {s : State} (h : TransformRunning rk s)
    (hp : s.ph = .dec) :
    ∃ t, advance k s = .ok t ∧ TransformRunning rk t ∧ t.rnd.toNat = s.rnd.toNat - k ∧
      decFrom rk (t.rnd.toNat + 1) t.rnd.toNat t.st = decFrom rk (s.rnd.toNat + 1) s.rnd.toNat s.st ∧
      t = { s with st := t.st, rnd := t.rnd } := by
  induction k generalizing s with
  | zero => exact ⟨s, rfl, h, rfl, rfl, rfl⟩
  | succ k ih =>
    unfold advance
    by_cases hl : atLastStep s = true
    · rw [if_pos hl]
      have : s.rnd = 0 := by simpa [atLastStep, hp] using hl
      exact ⟨s, rfl, h, by simp [this], rfl, rfl⟩
    · rw [if_neg hl]
      have hn : s.rnd.toNat ≠ 0 := rnd_ne (v := 0) (by simpa [atLastStep, hp] using hl)
      have hr := h.rnd
      have e : (s.rnd - 1).toNat = s.rnd.toNat - 1 := by rw [BitVec.toNat_sub]; simp; omega
      have hm : microStep s =
          .ok { s with st := decRound s.rnd.toNat (roundWords rk h.round) s.st, rnd := s.rnd - 1 } := by
        simp only [microStep, hp, h.transformRound, bind, Except.bind, pure, Except.pure]
      rw [hm]
      obtain ⟨t, h1, h2, h4, h5, h6⟩ := ih (s := { s with
        st := decRound s.rnd.toNat (roundWords rk h.round) s.st, rnd := s.rnd - 1 }) ⟨h.rk, by simp only [e]; omega⟩ hp
      refine ⟨t, h1, h2, by rw [h4]; simp only [e]; omega, ?_, by rw [h6]⟩
      rw [h5]
      simp only [e]
      conv_rhs => rw [decFrom, dif_pos (by omega : s.rnd.toNat < 11)]
      rw [show s.rnd.toNat - 1 + 1 = s.rnd.toNat by omega]
      rfl

/-- A DEC in progress, finished: the inverse cipher of the block it was accepted with (42_round_engine.md R118, R120). -/
theorem TransformRunning.finish_dec {rk : Schedule} {s : State} {b : Block} (h : TransformRunning rk s)
    (hp : s.ph = .dec) (hc : decFrom rk (s.rnd.toNat + 1) s.rnd.toNat s.st = invcipherState rk b) :
    finish s = .ok (respond .dec .ok (invcipher rk b) { s with st := invcipherState rk b, rnd := 0 }) := by
  obtain ⟨t, h1, h2, h4, h5, h6⟩ := h.advance_dec 40 hp
  have hw : t.rnd.toNat = 0 := by have := h.rnd; omega
  have hw' : t.rnd = 0 := BitVec.eq_of_toNat_eq (by simpa using hw)
  have h3 : t.ph = .dec := by rw [h6]; exact hp
  have e : decRound t.rnd.toNat (roundWords rk h2.round) t.st = invcipherState rk b := by
    rw [← hc, ← h5]
    have hf : h2.round = 0 := Fin.ext hw
    rw [hf]
    simp only [hw]
    rfl
  unfold finish
  rw [h1]
  simp only [bind, Except.bind, lastStep, h3, h2.transformRound, pure, Except.pure, e]
  rw [h6]
  simp [hw', invcipher, hp]

/-! ### RDRK, GFMUL and faults -/

theorem advance_of_atLastStep {s : State} (h : atLastStep s = true) (k : Nat) : advance k s = .ok s := by
  cases k with
  | zero => rfl
  | succ k => unfold advance; rw [if_pos h]

theorem finish_of_atLastStep {s : State} (h : atLastStep s = true) : finish s = lastStep s := by
  unfold finish
  rw [advance_of_atLastStep h]
  rfl

theorem finish_rdrk {rk : Schedule} {s : State} {n : BitVec 4} (hp : s.ph = .rdrk n) (hr : s.rk = scheduleMemory rk)
    (hn : n.toNat ≤ 10) :
    finish s = .ok (respond (.rdrk n) .ok (roundkey rk ⟨n.toNat, by omega⟩) s) := by
  rw [finish_of_atLastStep (by simp [atLastStep, hp])]
  simp only [lastStep, hp, hr]
  have h := readRound_scheduleMemory rk ⟨n.toNat, by omega⟩
  rw [h]
  rfl

theorem finish_gfmul {s : State} {a b : Byte} (hp : s.ph = .gfmul a b) :
    finish s = .ok (respond (.gfmul a b) .ok (productBlock (gfmul a b)) s) := by
  rw [finish_of_atLastStep (by simp [atLastStep, hp])]
  simp only [lastStep, hp]

theorem finish_err {s : State} {f : CommandFault} (hp : s.ph = .err f) : finish s = .ok (raiseFault f s) := by
  rw [finish_of_atLastStep (by simp [atLastStep, hp])]
  simp only [lastStep, hp]

end Sys2Proof.Machine
end

