-- ==== Sys2Proof/Laws/PerInstr.lean ====
section
/-! SUPPORT. What holds of every command as syntax, one lemma per constructor. -/

namespace Sys2Proof.Laws.LegalWord

/-- A well-formed command is written with one of the 15 legal command words (30_encoding.md R64, R65). -/
def Statement (i : Instr) : Prop :=
  i.wf = true → (encode i).1 ∈
    ([0x10, 0x20, 0x30, 0x40, 0x41, 0x42, 0x43, 0x44, 0x45, 0x46, 0x47, 0x48, 0x49, 0x4a, 0x50] : List (BitVec 8))

theorem kexp (key : Block) : Statement (.kexp key) := fun _ => by simp [encode, cmdWord]

theorem enc (block : Block) : Statement (.enc block) := fun _ => by simp [encode, cmdWord]

theorem dec (block : Block) : Statement (.dec block) := fun _ => by simp [encode, cmdWord]

theorem rdrk (n : BitVec 4) : Statement (.rdrk n) := by
  unfold Statement
  revert n
  decide

theorem gfmul (a b : Byte) : Statement (.gfmul a b) := fun _ => by simp [encode, cmdWord]

end Sys2Proof.Laws.LegalWord
end

