-- ==== Sys2Proof/Machine/Text.lean ====
section
/-! DEFINITION. Commands, moves of the host and responses as text (30_encoding.md R68). -/

namespace Sys2Proof.Machine

/-- A hexadecimal digit, in lower case (00_scope.md R7). -/
def hexDigit (d : Nat) : Char := "0123456789abcdef".toList.getD d '0'

/-- A byte as two digits (R7). -/
def hexByte (b : Byte) : List Char := [hexDigit (b.toNat / 16), hexDigit (b.toNat % 16)]

/-- A block as 32 digits, byte 0 first (R7). -/
def hexBlock (b : Block) : List Char := b.toList.flatMap hexByte

/-- The decimal spelling of a round-key number, 0..15. -/
def decimal (n : BitVec 4) : List Char :=
  if n.toNat < 10 then [hexDigit n.toNat] else ['1', hexDigit (n.toNat - 10)]

/-- A command as a line of text (R68). -/
def commandText : Instr → List Char
  | .kexp key => "KEXP ".toList ++ hexBlock key
  | .enc block => "ENC ".toList ++ hexBlock block
  | .dec block => "DEC ".toList ++ hexBlock block
  | .rdrk n => "RDRK ".toList ++ decimal n
  | .gfmul a b => "GFMUL ".toList ++ hexByte a ++ ", ".toList ++ hexByte b

/-- `RAW` with the word and the data operand as they are (R68). -/
def rawText (cmd : BitVec 8) (din : BitVec 128) : List Char :=
  "RAW ".toList ++ hexByte cmd ++ " ".toList ++ hexBlock (blockOfBus din)

/-- A command word and its data operand as text: the command it decodes to, or `RAW` for an illegal word and for a word
whose ignored data bytes are not the zeros of the command's own text (R68; 95_test_vectors.md 2.1, 2.2). -/
def wordText (cmd : BitVec 8) (din : BitVec 128) : List Char :=
  match decode cmd din with
  | .ok i => if encode i = (cmd, din) then commandText i else rawText cmd din
  | .error _ => rawText cmd din

/-- The name of a status (60_exceptions.md R130). -/
def statusText : Status → List Char
  | .ok => "OK".toList
  | .errIllegal => "ERR_ILLEGAL".toList
  | .errNoKey => "ERR_NOKEY".toList

/-- A response as text: `-> STATUS data` (R68). -/
def responseText (st : Status) (data : Block) : List Char :=
  "-> ".toList ++ statusText st ++ " ".toList ++ hexBlock data

/-- The text of RESET (R68); the move is `resetMove`. -/
def resetText : List Char := "RESET".toList

end Sys2Proof.Machine
end

