-- ==== Sys2Proof/Tests/Slice0.lean ====
section
/-! SUPPORT. The model's own tests. Every expected value is written out from spec/, 95_test_vectors.md unless a comment
says otherwise. The last part shows, for every statement with hypotheses, a state and operands that meet them. -/

namespace Sys2Proof.Tests

open Sys2Proof Sys2Proof.Machine

/-! ### Helpers -/

/-- The response of an outcome that is a next state. -/
def answer (o : Host.Outcome State Fault Refusal) : Option (BitVec 2 × Block) :=
  match o with
  | .next t => response t
  | _ => none

/-- A schedule word of an outcome that is a next state. -/
def wordAfter (o : Host.Outcome State Fault Refusal) (i : Nat) : Option Word :=
  match o with
  | .next t => (readWord t.rk i).toOption
  | _ => none

/-- The state of an outcome that is a next state. -/
def after (o : Except Fault State) : Option State := o.toOption

/-- The key of vector 1.1. -/
def key1 : Block := blockOfBus 0x000102030405060708090a0b0c0d0e0f

/-- The block with KV 1 and the schedule of `key1` in RK, as KEXP leaves it. -/
def keyed : State := { State.reset with kv := true, rk := scheduleMemory (expand key1) }

/-- `keyed` with the word presented as the host's next move. -/
def presented (cmd : BitVec 8) (din : BitVec 128) : State := { keyed with host := [.command cmd din] }

/-- An ENC in progress under the key of `keyed`. -/
def busy : State := { keyed with ph := .enc, st := load key1, rnd := 0, latLeft := 3 }

/-- The response cycle of an OK for GFMUL. -/
def responding : State := respond (.gfmul 0x57 0x83) .ok (productBlock 0xc1) keyed

/-! ### Well-formedness -/

theorem test_wf_rdrk_refused : (Instr.rdrk 11).wf = false ∧ (Instr.rdrk 15).wf = false := by decide

theorem test_wf_accepted : (Instr.rdrk 0).wf = true ∧ (Instr.rdrk 10).wf = true ∧ (Instr.kexp key1).wf = true ∧
    (Instr.enc key1).wf = true ∧ (Instr.dec key1).wf = true ∧ (Instr.gfmul 0 0).wf = true := by decide

/-! ### Decoding: words written out from 30_encoding.md R64 -/

theorem test_decode_kexp : decode 0b00010000 0x000102030405060708090a0b0c0d0e0f =
    .ok (.kexp ⟨#[0x00, 0x01, 0x02, 0x03, 0x04, 0x05, 0x06, 0x07, 0x08, 0x09, 0x0a, 0x0b, 0x0c, 0x0d, 0x0e, 0x0f], rfl⟩) := by
  decide

theorem test_decode_enc : decode 0b00100000 0x00112233445566778899aabbccddeeff =
    .ok (.enc ⟨#[0x00, 0x11, 0x22, 0x33, 0x44, 0x55, 0x66, 0x77, 0x88, 0x99, 0xaa, 0xbb, 0xcc, 0xdd, 0xee, 0xff], rfl⟩) := by
  decide

theorem test_decode_dec : decode 0b00110000 0x69c4e0d86a7b0430d8cdb78070b4c55a =
    .ok (.dec ⟨#[0x69, 0xc4, 0xe0, 0xd8, 0x6a, 0x7b, 0x04, 0x30, 0xd8, 0xcd, 0xb7, 0x80, 0x70, 0xb4, 0xc5, 0x5a], rfl⟩) := by
  decide

theorem test_decode_rdrk : decode 0b01000000 0 = .ok (.rdrk 0) ∧ decode 0b01001010 0 = .ok (.rdrk 10) := by decide

theorem test_decode_gfmul : decode 0b01010000 0x5783deadbeefcafef00d0123456789ab = .ok (.gfmul 0x57 0x83) := by decide

/-- The three ways a word is illegal (30_encoding.md R65), at the ends of their ranges. -/
theorem test_decode_illegal : decode 0x00 0 = .error .reservedOp ∧ decode 0x60 0 = .error .reservedOp ∧
    decode 0xff 0 = .error .reservedOp ∧ decode 0x11 0 = .error .nonzeroN ∧ decode 0x5f 0 = .error .nonzeroN ∧
    decode 0x4b 0 = .error .roundKeyNumber ∧ decode 0x4f 0 = .error .roundKeyNumber := by decide

theorem test_encode : encode (.rdrk 10) = (0x4a, 0) ∧
    encode (.gfmul 0x57 0x83) = (0x50, 0x57830000000000000000000000000000) ∧
    encode (.kexp key1) = (0x10, 0x000102030405060708090a0b0c0d0e0f) := by decide

/-- A command word alone is 8 bits: the data operand is then zeros (log 17). -/
theorem test_decodeTableWord : decodeTableWord 8 0x43 = some (.rdrk 3) ∧
    decodeTableWord 136 0x835750 = some (.gfmul 0x57 0x83) ∧ decodeTableWord 8 0x4b = none := by decide

theorem test_withFetchWord : answer (step (State.reset.withFetchWord 136 0x835750)) =
    some (0, blockOfBus 0xc1000000000000000000000000000000) := by decide

/-! ### The field and the tables -/

theorem test_gfmul_products : gfmul 0x57 0x13 = 0xfe ∧ gfmul 0x57 0x10 = 0x07 ∧ gfmul 0xff 0xff = 0x13 ∧
    gfmul 0x02 0x80 = 0x1b ∧ gfmul 0x0d 0x5d = 0xec ∧ gfmul 0x80 0x80 = 0x9a := by decide

theorem test_xtime_chain : xtime 0x57 = 0xae ∧ xtime 0xae = 0x47 ∧ xtime 0x47 = 0x8e ∧ xtime 0x8e = 0x07 := by decide

theorem test_rcon : rcon 1 = 0x01 ∧ rcon 8 = 0x80 ∧ rcon 9 = 0x1b ∧ rcon 10 = 0x36 := by decide +kernel

theorem test_sbox : SBOX 0x00 = 0x63 ∧ SBOX 0x53 = 0xed ∧ SBOX 0xff = 0x16 ∧ INV_SBOX 0x00 = 0x52 ∧
    INV_SBOX 0x63 = 0x00 ∧ INV_SBOX 0xed = 0x53 ∧ INV_SBOX 0x16 = 0xff := by decide

/-! ### Sub-operations (95_test_vectors.md 2.2.1 and 2.3) -/

theorem test_temp : temp 4 ⟨#[0x0c, 0x0d, 0x0e, 0x0f], rfl⟩ = ⟨#[0xd6, 0xab, 0x76, 0xfe], rfl⟩ ∧
    temp 40 ⟨#[0xbe, 0x2c, 0x97, 0x4e], rfl⟩ = ⟨#[0x47, 0x88, 0x2f, 0xae], rfl⟩ ∧
    temp 5 ⟨#[1, 2, 3, 4], rfl⟩ = ⟨#[1, 2, 3, 4], rfl⟩ := by decide +kernel

theorem test_shiftRows : store (shiftRows (load key1)) = blockOfBus 0x00050a0f04090e03080d02070c01060b ∧
    store (invShiftRows (load key1)) = blockOfBus 0x000d0a0704010e0b0805020f0c090603 := by decide

theorem test_mixColumns : store (mixColumns (load (blockOfBus 0xdb135345f20a225c01010101c6c6c6c6))) =
      blockOfBus 0x8e4da1bc9fdc589d01010101c6c6c6c6 ∧
    store (invMixColumns (load (blockOfBus 0x01000000000100000000010000000001))) =
      blockOfBus 0x0e090d0b0b0e090d0d0b0e09090d0b0e := by decide +kernel

theorem test_subBytes : store (subBytes (load (blockOfBus 0x00102030405060708090a0b0c0d0e0f0))) =
      blockOfBus 0x63cab7040953d051cd60e0e7ba70e18c ∧
    store (invSubBytes (load (blockOfBus 0x63cab7040953d051cd60e0e7ba70e18c))) =
      blockOfBus 0x00102030405060708090a0b0c0d0e0f0 := by decide +kernel

/-! ### One step per command -/

/-- Vector 2.2.3: words 4 and 43 of its schedule, the response and KV. -/
theorem test_step_kexp :
    wordAfter (step (presented 0x10 0x2b7e151628aed2a6abf7158809cf4f3c)) 4 = some ⟨#[0xa0, 0xfa, 0xfe, 0x17], rfl⟩ ∧
    wordAfter (step (presented 0x10 0x2b7e151628aed2a6abf7158809cf4f3c)) 43 = some ⟨#[0xb6, 0x63, 0x0c, 0xa6], rfl⟩ ∧
    answer (step (presented 0x10 0x2b7e151628aed2a6abf7158809cf4f3c)) = some (0, blockOfBus 0) := by decide +kernel

/-- Vector 1.1. -/
theorem test_step_enc : answer (step (presented 0x20 0x00112233445566778899aabbccddeeff)) =
    some (0, blockOfBus 0x69c4e0d86a7b0430d8cdb78070b4c55a) := by decide +kernel

/-- Vector 1.1, the other way round. -/
theorem test_step_dec : answer (step (presented 0x30 0x69c4e0d86a7b0430d8cdb78070b4c55a)) =
    some (0, blockOfBus 0x00112233445566778899aabbccddeeff) := by decide +kernel

/-- The cipher under a second schedule: vector 1.2. -/
theorem test_cipher_zero_key : cipher (expand (blockOfBus 0)) (blockOfBus 0) =
    blockOfBus 0x66e94bd4ef8a2c3b884cfa59ca342b2e := by decide +kernel

theorem test_step_rdrk : answer (step (presented 0x4a 0)) = some (0, blockOfBus 0x13111d7fe3944a17f307a78b4d2b30c5) ∧
    answer (step (presented 0x43 0xffffffffffffffffffffffffffffffff)) =
      some (0, blockOfBus 0xb6ff744ed2c2c9bf6c590cbf0469bf41) := by decide +kernel

/-- GFMUL needs no key, and ignores bytes 2..15 of `din` (40_gf_arithmetic.md R86). -/
theorem test_step_gfmul :
    answer (step { State.reset with host := [.command 0x50 0x5783deadbeefcafef00d0123456789ab] }) =
      some (0, blockOfBus 0xc1000000000000000000000000000000) := by decide

/-- NoKey for ENC, DEC and RDRK after reset; status 2 and zeros (60_exceptions.md R132). -/
theorem test_step_noKey : ∀ w ∈ ([0x20, 0x30, 0x40, 0x4a] : List (BitVec 8)),
    answer (step { State.reset with host := [.command w 0] }) = some (2, blockOfBus 0) := by decide

/-- IllegalCommand comes before NoKey, and RK and KV stay, also for `op` 1 (60_exceptions.md R131, R139). -/
theorem test_step_illegal : answer (step { State.reset with host := [.command 0x4b 0] }) = some (1, blockOfBus 0) ∧
    answer (step (presented 0x11 0)) = some (1, blockOfBus 0) ∧
    wordAfter (step (presented 0x11 0)) 3 = some ⟨#[0x0c, 0x0d, 0x0e, 0x0f], rfl⟩ := by decide +kernel

/-! ### The pins -/

theorem test_pins_reset : outPins State.reset = ⟨true, false, false, none, none⟩ := by decide

/-- A response is a cycle with `cmd_ready` 0, `resp_valid` 1, and the data on the bus (30_encoding.md R71, R73). -/
theorem test_pins_response :
    outPins responding = ⟨false, true, true, some 0, some 0xc1000000000000000000000000000000⟩ := by decide +kernel

theorem test_edge_reset : (after (clockEdge resetPins busy)).map (fun t => (t.kv, t.ph, t.respValid, t.rk)) =
    some (false, .idle, false, []) := by decide +kernel

theorem test_edge_endResponse : (after (clockEdge (presentPins 0x10 0) responding)).map (fun t => (t.kv, t.ph, t.respValid)) =
    some (true, .idle, false) := by decide +kernel

/-- One micro-step of ENC: round 0, then RND names round 1 (95_test_vectors.md 2.4). -/
theorem test_microStep_enc :
    (after (microStep { busy with st := load (blockOfBus 0x00112233445566778899aabbccddeeff) })).map
      (fun t => (store t.st, t.rnd)) = some (blockOfBus 0x00102030405060708090a0b0c0d0e0f0, 1) := by decide +kernel

/-- Acceptance of KEXP clears KV and leaves only the key's words in RK (41_key_scheduler.md R96, R98). -/
theorem test_accept_kexp : (accept 0x10 0 keyed).kv = false ∧ (accept 0x10 0 keyed).ph = .kexp ∧
    (accept 0x10 0 keyed).wi = 4 ∧ readWord (accept 0x10 0 keyed).rk 3 = .ok ⟨#[0, 0, 0, 0], rfl⟩ ∧
    readWord (accept 0x10 0 keyed).rk 4 = .error .rkNoValue := by decide +kernel

/-! ### Text (30_encoding.md R68) -/

theorem test_text : commandText (.gfmul 0x57 0x83) = "GFMUL 57, 83".toList ∧ commandText (.rdrk 10) = "RDRK 10".toList ∧
    commandText (.enc key1) = "ENC 000102030405060708090a0b0c0d0e0f".toList ∧
    wordText 0x4b 0 = "RAW 4b 00000000000000000000000000000000".toList ∧ wordText 0x43 0 = "RDRK 3".toList ∧
    wordText 0x43 1 = "RAW 43 00000000000000000000000000000001".toList ∧
    responseText .errNoKey Block.zero = "-> ERR_NOKEY 00000000000000000000000000000000".toList := by decide +kernel

/-! ### Witnesses: for every statement with hypotheses, a state and operands that meet them -/

/-- An outcome whose next state passes a test is a next state that passes it. -/
theorem next_of_test {o : Host.Outcome State Fault Refusal} {P : State → Bool}
    (h : (match o with | .next t => P t | _ => false) = true) : ∃ t, o = .next t ∧ P t = true := by
  cases o with
  | next t => exact ⟨t, rfl, h⟩
  | fault f => cases h
  | refused r => cases h

theorem keyed_schedule : readSchedule keyed.rk = .ok (expand key1) := readSchedule_scheduleMemory _

theorem keyed_words (n : Fin 11) (c : Fin 4) :
    readWord keyed.rk (4 * n.val + c.val) = .ok ((roundWords (expand key1) n).get c) := by
  rw [roundWords_get]; exact readWord_scheduleMemory _ (by omega)

/-- The block holding a key, idle: sound. -/
theorem sound_keyed : Sound keyed :=
  ⟨wf_scheduleMemory _, fun _ => ⟨key1, rfl⟩, rfl, fun h => absurd h (by decide)⟩

/-- An ENC in progress: sound. -/
theorem sound_busy : Sound busy :=
  ⟨wf_scheduleMemory _, fun _ => ⟨key1, rfl⟩, ⟨rfl, by decide⟩, fun h => absurd h (by decide)⟩

/-- A response cycle: sound. -/
theorem sound_responding : Sound responding :=
  ⟨wf_scheduleMemory _, fun _ => ⟨key1, rfl⟩, trivial, fun _ => .inl rfl⟩

/-- A KEXP in progress whose next step is the last. -/
def lastWord : State :=
  { State.reset with ph := .kexp, wi := 43, rk := putWords [] 0 (scheduleWords key1 43) }

theorem sound_lastWord : Sound lastWord :=
  ⟨by decide +kernel, fun h => absurd h (by decide), ⟨rfl, by decide, by decide, key1, rfl⟩, fun h => absurd h (by decide)⟩

theorem witness_DecodeOfEncode : (Instr.rdrk 0).wf = true ∧ (Instr.rdrk 10).wf = true ∧ (Instr.kexp key1).wf = true := by
  decide

theorem witness_EncodeOfDecode : decode 0x20 0x000102030405060708090a0b0c0d0e0f = .ok (.enc key1) ∧
    decode 0x50 0x5783deadbeefcafef00d0123456789ab = .ok (.gfmul 0x57 0x83) ∧ decode 0x4a 1 = .ok (.rdrk 10) := by decide

theorem witness_DecodingAlgorithm :
    ((0x10 : BitVec 8).toNat / 16 = 1 ∧ (0x10 : BitVec 8).toNat % 16 = 0) ∧
    ((0x20 : BitVec 8).toNat / 16 = 2 ∧ (0x20 : BitVec 8).toNat % 16 = 0) ∧
    ((0x30 : BitVec 8).toNat / 16 = 3 ∧ (0x30 : BitVec 8).toNat % 16 = 0) ∧
    ((0x40 : BitVec 8).toNat / 16 = 4 ∧ (0x40 : BitVec 8).toNat % 16 ≤ 10) ∧
    ((0x4a : BitVec 8).toNat / 16 = 4 ∧ (0x4a : BitVec 8).toNat % 16 ≤ 10) ∧
    ((0x50 : BitVec 8).toNat / 16 = 5 ∧ (0x50 : BitVec 8).toNat % 16 = 0) ∧
    ∀ w ∈ ([0x00, 0x11, 0x4b, 0x5f, 0x60, 0xff] : List (BitVec 8)),
      ¬ ((w.toNat / 16 = 1 ∨ w.toNat / 16 = 2 ∨ w.toNat / 16 = 3 ∨ w.toNat / 16 = 5) ∧ w.toNat % 16 = 0) ∧
        ¬ (w.toNat / 16 = 4 ∧ w.toNat % 16 ≤ 10) := by decide

theorem witness_IllegalWords : ∃ rest, (presented 0x4b 0).host = .command 0x4b 0 :: rest ∧ (presented 0x4b 0).ph = .idle ∧
    decode 0x4b 0 = .error .roundKeyNumber := ⟨[], rfl, rfl, by decide⟩

theorem witness_StepRunsDecoded : ∃ rest, (presented 0x4a 0).host = .command 0x4a 0 :: rest ∧
    (presented 0x4a 0).ph = .idle ∧ decode 0x4a 0 = .ok (.rdrk 10) := ⟨[], rfl, rfl, by decide⟩

theorem witness_StepIsClockEdge : keyed.host = [] ∧
    (∃ p rest, { keyed with host := [.edge resetPins] }.host = .edge p :: rest) ∧
    ∃ cmd din rest, { busy with host := [.command 0x10 0] }.host = .command cmd din :: rest ∧
      { busy with host := [.command 0x10 0] }.ph ≠ .idle :=
  ⟨rfl, ⟨_, _, rfl⟩, 0x10, 0, [], rfl, by decide⟩

theorem witness_FetchWordRuns : decodeTableWord 8 0x4a = some (.rdrk 10) ∧ decodeTableWord 8 0x40 = some (.rdrk 0) := by
  decide

theorem witness_AcceptanceHandshake :
    (∃ t, (presentPins 0x50 0).rst = false ∧ (presentPins 0x50 0).cmdValid = true ∧ cmdReady State.reset = true ∧
      clockEdge (presentPins 0x50 0) State.reset = .ok t) ∧
    quietPins.rst = false ∧ quietPins.cmdValid = false ∧ cmdReady State.reset = true := by
  refine ⟨?_, rfl, rfl, rfl⟩
  have hp : (accept 0x50 0 State.reset).ph = .gfmul 0 0 := by decide
  have ha : atLastStep (accept 0x50 0 State.reset) = true := by decide
  have hw : ∃ t, workEdge (accept 0x50 0 State.reset) = .ok t := by
    unfold workEdge
    split
    · exact ⟨_, finish_gfmul hp⟩
    · rw [advance_of_atLastStep ha]; exact ⟨_, rfl⟩
  obtain ⟨t, ht⟩ := hw
  exact ⟨t, rfl, rfl, rfl, ht⟩

theorem witness_BusyIgnoresPins : (presentPins 0x10 0).rst = false ∧ cmdReady busy = false := by decide

theorem witness_ResponseLastsOneCycle : responding.respValid = true ∧ cmdReady responding = false ∧
    (presentPins 0x10 0).rst = false := by decide

theorem witness_ResetEdgeEffect : resetPins.rst = true ∧ (0 : Nat) < 44 ∧ (43 : Nat) < 44 := by decide

theorem witness_ResetAbandonsCommand : resetPins.rst = true ∧ cmdReady busy = false ∧ cmdReady lastWord = false := by decide

theorem witness_nonzero_n : (1 : BitVec 4) ≠ 0 ∧ (15 : BitVec 4) ≠ 0 := by decide

theorem witness_KexpCommand : (∀ key, Instr.rdrk 10 ≠ .kexp key) ∧ (∃ t, exec (.rdrk 10) keyed = .next t) ∧ keyed.kv = true ∧ keyed.rk = scheduleMemory (expand key1) ∧ lastWord.ph = .kexp ∧
    (presentPins 0x10 0).rst = false :=
  ⟨by simp, next_of_test (P := fun _ => true) (by decide +kernel) |>.imp fun _ h => h.1, rfl, rfl, rfl, rfl⟩

theorem witness_EncCommand : State.reset.kv = false ∧ keyed.kv = true ∧ readSchedule keyed.rk = .ok (expand key1) :=
  ⟨rfl, rfl, keyed_schedule⟩

theorem witness_DecCommand : State.reset.kv = false ∧ keyed.kv = true ∧ readSchedule keyed.rk = .ok (expand key1) ∧
    ∃ block other, cipher (expand key1) other = block := ⟨rfl, rfl, keyed_schedule, _, key1, rfl⟩

theorem witness_RdrkCommand : (0 : BitVec 4).toNat ≤ 10 ∧ (10 : BitVec 4).toNat ≤ 10 ∧ 10 < (11 : BitVec 4).toNat ∧
    10 < (15 : BitVec 4).toNat ∧ State.reset.kv = false ∧ keyed.kv = true ∧ readSchedule keyed.rk = .ok (expand key1) ∧
    (∀ c : Fin 4, readWord keyed.rk (4 * (0 : BitVec 4).toNat + c.val) = .ok ((roundWords (expand key1) 0).get c)) ∧
    ∀ c : Fin 4, readWord keyed.rk (4 * (10 : BitVec 4).toNat + c.val) = .ok ((roundWords (expand key1) 10).get c) :=
  ⟨by decide, by decide, by decide, by decide, rfl, rfl, keyed_schedule, keyed_words 0, keyed_words 10⟩

theorem witness_GfmulCommand : busByte 0x57830000000000000000000000000000 0 = busByte 0x5783deadbeefcafef00d0123456789ab 0 ∧
    busByte 0x57830000000000000000000000000000 1 = busByte 0x5783deadbeefcafef00d0123456789ab 1 := by decide

theorem witness_NoKeyFault : State.reset.kv = false ∧
    ∀ i ∈ ([.enc key1, .dec key1, .rdrk 0, .rdrk 10] : List Instr),
      i.wf = true ∧ (∀ k, i ≠ .kexp k) ∧ ∀ a b, i ≠ .gfmul a b := by
  refine ⟨rfl, ?_⟩
  simp [Instr.wf, legalRoundKey]

theorem witness_IllegalCommandFault : decode 0x11 0 = .error .nonzeroN ∧ decode 0x4b 0 = .error .roundKeyNumber ∧
    decode 0x00 0 = .error .reservedOp ∧ decode 0xff 0 = .error .reservedOp := by decide

theorem witness_IllFormedRdrk : 10 < (11 : BitVec 4).toNat ∧ 10 < (15 : BitVec 4).toNat := by decide

theorem witness_UnwrittenScheduleFaults : { keyed with rk := [] }.kv = true ∧ (10 : BitVec 4).toNat ≤ 10 ∧
    readSchedule [] = .error .rkNoValue ∧ readRound [] (10 : BitVec 4).toNat = .error .rkNoValue := by decide +kernel

theorem witness_SequencerSteps : (lastWord.ph = .kexp ∧ 4 ≤ lastWord.wi.toNat ∧ lastWord.wi.toNat ≤ 43 ∧
      (readWord lastWord.rk 39).toOption.isSome = true ∧ (readWord lastWord.rk 42).toOption.isSome = true) ∧
    ((accept 0x10 0 keyed).wi.toNat = 4 ∧ (readWord (accept 0x10 0 keyed).rk 0).toOption.isSome = true ∧
      (readWord (accept 0x10 0 keyed).rk 3).toOption.isSome = true) ∧
    (∀ n : Fin 11, readRound keyed.rk n.val = .ok (roundWords (expand key1) n)) ∧ { busy with ph := .dec, rnd := 10 }.ph = .dec :=
  ⟨by decide +kernel, by decide +kernel, fun n => readRound_scheduleMemory _ n, rfl⟩

theorem witness_TransformFrame : (∃ t, exec (.enc key1) keyed = .next t) ∧ ∃ t, exec (.dec key1) keyed = .next t :=
  ⟨⟨_, exec_enc_of_key rfl keyed_schedule⟩, ⟨_, exec_dec_of_key rfl keyed_schedule⟩⟩

theorem witness_ReadOnlyFrame : (∃ t, exec (.rdrk 11) keyed = .next t) ∧ (∃ t, exec (.rdrk 10) State.reset = .next t) ∧
    ∃ t, exec (.gfmul 0x57 0x83) keyed = .next t :=
  ⟨⟨_, exec_of_fault rfl⟩, ⟨_, exec_of_fault rfl⟩, ⟨_, exec_gfmul _ _ _⟩⟩

theorem witness_KexpFrame : (∃ t, exec (.kexp key1) keyed = .next t) ∧ 176 ≤ 176 := ⟨⟨_, exec_kexp _ _⟩, le_rfl⟩

theorem witness_SubWordAndAddRcon : (1 : Fin 4) ≠ 0 ∧ (3 : Fin 4) ≠ 0 := by decide

theorem witness_ScheduleRecurrence : 4 % 4 = 0 ∧ 40 % 4 = 0 ∧ 5 % 4 ≠ 0 ∧ 43 % 4 ≠ 0 ∧ (4 ≤ 4 ∧ 4 < 44) ∧ (4 ≤ 43 ∧ 43 < 44) := by
  decide

theorem witness_RoundConstants : (2 ≤ 2 ∧ 2 ≤ 10) ∧ (2 ≤ 10 ∧ 10 ≤ 10) := by decide

theorem witness_FieldLaws : gfmul 0x00 0xff = 0 ∧ (0xff : Byte) ≠ 0 ∧ (0x01 : Byte) ≠ 0 := by decide +kernel

theorem witness_SboxIsAffineInverse : gfmul 0x53 0xca = 1 ∧ gfmul 0x01 0x01 = 1 ∧ (0xff : Byte) ≠ 0 := by decide +kernel

theorem witness_DecUndoesEnc : keyed.kv = true ∧ readSchedule keyed.rk = .ok (expand key1) := ⟨rfl, keyed_schedule⟩

theorem witness_AnswerDependsOnKeyState : keyed.rk = { keyed with st := load key1, rnd := 7 }.rk ∧
    keyed.kv = { keyed with st := load key1, rnd := 7 }.kv ∧ ∃ t, exec (.enc key1) keyed = .next t :=
  ⟨rfl, rfl, _, exec_enc_of_key rfl keyed_schedule⟩

theorem witness_OldScheduleUnreadable : { keyed with kv := false }.kv = false ∧ (∃ key, Instr.kexp key1 = .kexp key) ∧
    ∀ key, Instr.enc key1 ≠ .kexp key := ⟨rfl, ⟨_, rfl⟩, by simp⟩

theorem witness_ResponseCyclePhase : (∃ t, exec (.kexp key1) keyed = .next t) ∧ (∃ t, exec (.enc key1) keyed = .next t) ∧
    (∃ t, exec (.dec key1) keyed = .next t) ∧ (∃ t, exec (.rdrk 0) keyed = .next t) ∧
    (∃ t, exec (.rdrk 10) keyed = .next t) ∧ keyed.kv = true ∧ (∃ t, exec (.gfmul 0 0) keyed = .next t) ∧
    (State.reset.kv = false ∧ (Instr.rdrk 10).wf = true ∧ (∀ k, Instr.rdrk 10 ≠ .kexp k) ∧
      (∀ a b, Instr.rdrk 10 ≠ .gfmul a b) ∧ ∃ t, exec (.rdrk 10) State.reset = .next t) ∧
    ∃ t, decode 0x4b 0 = .error .roundKeyNumber ∧ runWord 0x4b 0 keyed = .next t :=
  ⟨⟨_, exec_kexp _ _⟩, ⟨_, exec_enc_of_key rfl keyed_schedule⟩, ⟨_, exec_dec_of_key rfl keyed_schedule⟩,
    ⟨_, exec_rdrk_of_key rfl (by decide) (readRound_scheduleMemory _ 0)⟩,
    ⟨_, exec_rdrk_of_key rfl (by decide) (readRound_scheduleMemory _ 10)⟩, rfl, ⟨_, exec_gfmul _ _ _⟩,
    ⟨rfl, by decide, by simp, by simp, _, exec_of_fault rfl⟩, _, by decide, rfl⟩

/-- A reset edge, the last step of a KEXP, and the acceptance of a KEXP each change KV. -/
theorem witness_KeyMaterialImmutable :
    (∃ t, step { keyed with host := [.edge resetPins] } = .next t ∧ (t.kv != true) = true) ∧
    (∃ t, step lastWord = .next t ∧ (t.kv != false) = true) ∧
    ∃ t, step { State.reset with host := [.command 0x10 0] } = .next t ∧ (t.kv != false) = true :=
  ⟨next_of_test (by decide +kernel), next_of_test (by decide +kernel), next_of_test (by decide +kernel)⟩

theorem witness_StepKeepsMemoryForm : Memory.wf lastWord.rk = true ∧ ∃ t, step lastWord = .next t ∧ (t.rk != lastWord.rk) = true :=
  ⟨sound_lastWord.1, next_of_test (by decide +kernel)⟩

theorem witness_StepKeepsInvariant : Sound lastWord ∧ ∃ t, step lastWord = .next t ∧ (t.rk != lastWord.rk) = true :=
  ⟨sound_lastWord, next_of_test (by decide +kernel)⟩

theorem witness_NoStepStops : Sound keyed ∧ Sound busy ∧ Sound responding ∧ Sound lastWord :=
  ⟨sound_keyed, sound_busy, sound_responding, sound_lastWord⟩

theorem witness_ClockRefinesCommand : Sound keyed ∧ keyed.ph = .idle ∧
    (∀ p ∈ [presentPins 0x10 0, quietPins], p.rst = false) ∧
    (∃ t, step { keyed with host := [.command 0x20 0] } = .next t) ∧
    0 < Config.LAT (latencyOf (beginWord 0x20 0 keyed).ph) keyed.draws :=
  ⟨sound_keyed, rfl, by decide, ⟨_, exec_enc_of_key (s := keyed) rfl keyed_schedule⟩, Nat.succ_pos _⟩


end Sys2Proof.Tests
end

section
/-! PROOFS. The state of the block (10_state.md): what an operation keeps of RK and KV, what a read of RK can fail with,
and that every step keeps a sound state sound. -/

namespace Sys2Proof.Machine

/-! ### Reads of RK that fail -/

/-- A sequence of two operations fails where one of them does. -/
theorem bind_error {α β : Type} {x : Except Fault α} {g : α → Except Fault β} {f : Fault} (h : x >>= g = .error f) :
    x = .error f ∨ ∃ a, x = .ok a ∧ g a = .error f := by
  cases x with
  | error e => cases h; exact .inl rfl
  | ok a => exact .inr ⟨a, rfl, h⟩

/-- Inside RK the only fault of a read is that the word holds no value (10_state.md R35). -/
theorem readWord_error {m : List Host.Cell} {i : Nat} {f : Fault} (hi : i < 44) (h : readWord m i = .error f) :
    f = .rkNoValue := by
  rw [readWord, if_pos (show i < Config.NWORDS from hi)] at h
  split at h
  · cases h
  · cases h; rfl

theorem readRound_error {m : List Host.Cell} {n : Nat} {f : Fault} (hn : n ≤ 10) (h : readRound m n = .error f) :
    f = .rkNoValue := by
  unfold readRound at h
  obtain h | ⟨w0, -, h⟩ := bind_error h
  · exact readWord_error (by omega) h
  obtain h | ⟨w1, -, h⟩ := bind_error h
  · exact readWord_error (by omega) h
  obtain h | ⟨w2, -, h⟩ := bind_error h
  · exact readWord_error (by omega) h
  obtain h | ⟨w3, -, h⟩ := bind_error h
  · exact readWord_error (by omega) h
  · cases h

theorem readWords_error {m : List Host.Cell} {i k : Nat} {f : Fault} (hk : i + k ≤ 44)
    (h : readWords m i k = .error f) : f = .rkNoValue := by
  induction k with
  | zero => cases h
  | succ k ih =>
    unfold readWords at h
    obtain h | ⟨ws, -, h⟩ := bind_error h
    · exact ih (by omega) h
    obtain h | ⟨w, -, h⟩ := bind_error h
    · exact readWord_error (by omega) h
    · cases h

theorem readSchedule_error {m : List Host.Cell} {f : Fault} (h : readSchedule m = .error f) : f = .rkNoValue := by
  unfold readSchedule at h
  exact readWords_error (by decide) h

/-! ### Which fault a command raises -/

theorem commandFault_of_key {i : Instr} {s : State} (hk : s.kv = true) (hi : i.wf = true) : commandFault i s = none := by
  rcases commandFault_cases i s with ⟨hf, -⟩ | ⟨-, -, hk', -⟩ | ⟨-, hi'⟩
  · exact hf
  · exact absurd (hk'.symm.trans hk) Bool.false_ne_true
  · exact absurd (hi'.symm.trans hi) Bool.false_ne_true

/-- Without a key a well-formed ENC, DEC or RDRK raises NoKey (60_exceptions.md R132). -/
theorem commandFault_of_no_key {i : Instr} {s : State} (hk : s.kv = false) (hi : i.wf = true)
    (hkexp : ∀ k, i ≠ .kexp k) (hgfmul : ∀ a b, i ≠ .gfmul a b) : commandFault i s = some .noKey := by
  rcases commandFault_cases i s with ⟨-, -, ⟨k, e⟩ | ⟨a, b, e⟩ | hk'⟩ | ⟨hf, -⟩ | ⟨-, hi'⟩
  · exact absurd e (hkexp k)
  · exact absurd e (hgfmul a b)
  · exact absurd (hk.symm.trans hk') Bool.false_ne_true
  · exact hf
  · exact absurd (hi'.symm.trans hi) Bool.false_ne_true

/-- NoKey is raised only with KV 0 (60_exceptions.md R132). -/
theorem commandFault_noKey {i : Instr} {s : State} (h : commandFault i s = some .noKey) : s.kv = false := by
  rcases commandFault_cases i s with ⟨hn, -⟩ | ⟨-, -, hk, -⟩ | ⟨hi, -⟩
  · simp [h] at hn
  · exact hk
  · simp [h] at hi

/-! ### Which operations change RK or KV -/

/-- A command word is its two fields put side by side (30_encoding.md R60, R61). -/
theorem cmdWord_fields (cmd : BitVec 8) : cmdWord (cmdOp cmd) (cmdN cmd) = cmd := by
  simp only [cmdWord, cmdOp, cmdN]
  rw [BitVec.extractLsb'_append_extractLsb'_eq_extractLsb' (start₁ := 0) (start₂ := 4) rfl]
  exact BitVec.extractLsb'_eq_self

/-- Only the word 0x10 decodes to KEXP (30_encoding.md R64). -/
theorem decode_kexp {cmd : BitVec 8} {din : BitVec 128} {key : Block} (h : decode cmd din = .ok (.kexp key)) :
    cmd = 0x10 := by
  by_cases hf : cmdOp cmd = 1 ∧ cmdN cmd = 0
  · rw [← cmdWord_fields cmd, hf.1, hf.2]
    rfl
  · simp only [decode, if_neg hf] at h
    split_ifs at h <;> simp at h

/-- A word other than 0x10 decodes to another command. -/
theorem not_kexp_of_decode {cmd : BitVec 8} {din : BitVec 128} {i : Instr} (h : decode cmd din = .ok i)
    (hc : cmd ≠ 0x10) (key : Block) : i ≠ .kexp key := by
  rintro rfl
  exact hc (decode_kexp h)

theorem microStep_keyMaterial {s t : State} (hp : s.ph ≠ .kexp) (h : microStep s = .ok t) :
    t.rk = s.rk ∧ t.kv = s.kv := by
  rcases microStep_cases h with ⟨hk, -⟩ | ⟨-, _, -, rfl⟩ | ⟨-, _, -, rfl⟩ | ⟨-, -, -, rfl⟩
  · exact absurd hk hp
  all_goals exact ⟨rfl, rfl⟩

theorem advance_keyMaterial {k : Nat} {s t : State} (hp : s.ph ≠ .kexp) (h : advance k s = .ok t) :
    t.rk = s.rk ∧ t.kv = s.kv := by
  have hm : ∀ u v, atLastStep u = false → microStep u = .ok v →
      u.ph ≠ .kexp ∧ u.rk = s.rk ∧ u.kv = s.kv → v.ph ≠ .kexp ∧ v.rk = s.rk ∧ v.kv = s.kv := by
    rintro u v - huv ⟨hu, hrk, hkv⟩
    obtain ⟨hrk', hkv'⟩ := microStep_keyMaterial hu huv
    exact ⟨microStep_ph huv ▸ hu, hrk'.trans hrk, hkv'.trans hkv⟩
  exact (advance_keeps hm h ⟨hp, rfl, rfl⟩).2

theorem lastStep_keyMaterial {s t : State} (hp : s.ph ≠ .kexp) (h : lastStep s = .ok t) :
    t.rk = s.rk ∧ t.kv = s.kv := by
  rcases lastStep_cases h with ⟨-, rfl⟩ | ⟨hk, -⟩ | ⟨-, _, -, rfl⟩ | ⟨-, _, -, rfl⟩ | ⟨_, _, -, -, rfl⟩ |
    ⟨_, _, -, rfl⟩ | ⟨_, -, rfl⟩
  case inr.inl => exact absurd hk hp
  all_goals exact ⟨rfl, rfl⟩

/-- The edge of a command in progress that is not KEXP keeps RK and KV. -/
theorem workEdge_keyMaterial {s t : State} (hp : s.ph ≠ .kexp) (h : workEdge s = .ok t) :
    t.rk = s.rk ∧ t.kv = s.kv := by
  rcases workEdge_cases h with ⟨-, hf⟩ | ⟨-, u, hu, rfl⟩
  · obtain ⟨u, hu, hl⟩ := finish_cases hf
    obtain ⟨hrk, hkv⟩ := advance_keyMaterial hp hu
    obtain ⟨hrk', hkv'⟩ := lastStep_keyMaterial (advance_ph hu ▸ hp) hl
    exact ⟨hrk'.trans hrk, hkv'.trans hkv⟩
  · obtain ⟨hrk, hkv⟩ := advance_keyMaterial hp hu
    exact ⟨hrk, hkv⟩

/-- The acceptance of a command that raises a fault changes PH alone. -/
theorem begin_of_fault {i : Instr} {s : State} {f : CommandFault} (h : commandFault i s = some f) :
    begin i s = { s with ph := .err f } := by
  simp only [begin, h]

/-- The acceptance of a command that is not KEXP keeps RK and KV and starts no KEXP. -/
theorem begin_keyMaterial {i : Instr} {s : State} (hi : ∀ key, i ≠ .kexp key) :
    (begin i s).ph ≠ .kexp ∧ (begin i s).rk = s.rk ∧ (begin i s).kv = s.kv := by
  cases hf : commandFault i s with
  | some f => rw [begin_of_fault hf]; exact ⟨Phase.noConfusion, rfl, rfl⟩
  | none =>
    cases i with
    | kexp key => exact absurd rfl (hi key)
    | _ => simp [begin, hf]

theorem accept_keyMaterial {cmd : BitVec 8} {din : BitVec 128} {s : State} (hc : cmd ≠ 0x10) :
    (accept cmd din s).ph ≠ .kexp ∧ (accept cmd din s).rk = s.rk ∧ (accept cmd din s).kv = s.kv := by
  show (beginWord cmd din s).ph ≠ .kexp ∧ (beginWord cmd din s).rk = s.rk ∧ (beginWord cmd din s).kv = s.kv
  unfold beginWord
  split
  · next hd => exact begin_keyMaterial (not_kexp_of_decode hd hc)
  · exact ⟨Phase.noConfusion, rfl, rfl⟩

/-- A clock edge changes RK or KV only with `rst` = 1, in a KEXP in progress, or by accepting the word 0x10. -/
theorem clockEdge_keyMaterial {p : Pins} {s t : State} (h : clockEdge p s = .ok t) :
    (t.rk = s.rk ∧ t.kv = s.kv) ∨ p.rst = true ∨ (s.ph = .kexp ∧ s.respValid = false) ∨
      (p.rst = false ∧ s.ph = .idle ∧ p.cmdValid = true ∧ p.cmd = 0x10) := by
  rcases clockEdge_cases h with ⟨hr, -⟩ | ⟨hr, hp, hv, hw⟩ | ⟨-, -, -, rfl⟩ | ⟨-, -, -, rfl⟩ | ⟨-, -, hv, hw⟩
  · exact .inr (.inl hr)
  · by_cases hc : p.cmd = 0x10
    · exact .inr (.inr (.inr ⟨hr, hp, hv, hc⟩))
    · obtain ⟨ha, hrk, hkv⟩ := accept_keyMaterial (din := p.din) (s := s) hc
      obtain ⟨hrk', hkv'⟩ := workEdge_keyMaterial ha hw
      exact .inl ⟨hrk'.trans hrk, hkv'.trans hkv⟩
  · exact .inl ⟨rfl, rfl⟩
  · exact .inl ⟨rfl, rfl⟩
  · by_cases hp : s.ph = .kexp
    · exact .inr (.inr (.inl ⟨hp, hv⟩))
    · exact .inl (workEdge_keyMaterial hp hw)

/-- A command that is not KEXP keeps RK and KV. -/
theorem exec_keyMaterial {i : Instr} {s t : State} (hi : ∀ key, i ≠ .kexp key) (h : exec i s = .next t) :
    t.rk = s.rk ∧ t.kv = s.kv := by
  rcases exec_next_cases h with ⟨_, -, rfl⟩ | ⟨key, hk, -⟩ | ⟨_, _, -, -, -, rfl⟩ | ⟨_, _, -, -, -, rfl⟩ |
    ⟨_, _, -, -, -, -, rfl⟩ | ⟨_, _, -, rfl⟩
  case inr.inl => exact absurd hk (hi key)
  all_goals exact ⟨rfl, rfl⟩

theorem runWord_keyMaterial {cmd : BitVec 8} {din : BitVec 128} {s t : State} (hc : cmd ≠ 0x10)
    (h : runWord cmd din s = .next t) : t.rk = s.rk ∧ t.kv = s.kv := by
  rcases runWord_cases h with ⟨i, hd, he⟩ | ⟨_, -, rfl⟩
  · exact exec_keyMaterial (not_kexp_of_decode hd hc) he
  · exact ⟨rfl, rfl⟩

/-! ### What soundness says in each phase -/

theorem phaseInv_idle_iff {s : State} (hp : s.ph = .idle) : PhaseInv s ↔ s.respValid = false := by
  simp only [PhaseInv, hp]

theorem phaseInv_transform_iff {s : State} (hp : s.ph = .enc ∨ s.ph = .dec) :
    PhaseInv s ↔ s.kv = true ∧ s.rnd.toNat ≤ 10 := by
  rcases hp with hp | hp <;> simp only [PhaseInv, hp]

theorem phaseInv_rdrk_iff {s : State} {n : BitVec 4} (hp : s.ph = .rdrk n) :
    PhaseInv s ↔ s.kv = true ∧ legalRoundKey n = true := by
  simp only [PhaseInv, hp]

theorem phaseInv_gfmul {s : State} {a b : Byte} (hp : s.ph = .gfmul a b) : PhaseInv s := by
  simp only [PhaseInv, hp]

theorem phaseInv_err_iff {s : State} {f : CommandFault} (hp : s.ph = .err f) :
    PhaseInv s ↔ (f = .noKey → s.kv = false) := by
  simp only [PhaseInv, hp]

theorem responseInv_of_no_response {s : State} (hv : s.respValid = false) : ResponseInv s :=
  fun h => absurd (hv.symm.trans h) Bool.false_ne_true

theorem keyInv_of_no_key {s : State} (hk : s.kv = false) : KeyInv s :=
  fun h => absurd (hk.symm.trans h) Bool.false_ne_true

/-- In a sound state a KEXP that has not responded is one for some key, with KV 0 (10_state.md R22). -/
theorem Sound.kexpRunning {s : State} (hs : Sound s) (hp : s.ph = .kexp) (hv : s.respValid = false) :
    s.kv = false ∧ ∃ key, KexpRunning key s := by
  obtain ⟨-, -, hphase, -⟩ := hs
  simp only [PhaseInv, hp, hv, Bool.false_eq_true, if_false] at hphase
  obtain ⟨hk, hlow, hhigh, key, hrk⟩ := hphase
  exact ⟨hk, key, hp, hlow, hhigh, hrk⟩

theorem KexpRunning.sound {key : Block} {s : State} (h : KexpRunning key s) (hk : s.kv = false)
    (hv : s.respValid = false) : Sound s := by
  obtain ⟨hp, hlow, hhigh, hrk⟩ := h
  refine ⟨?_, keyInv_of_no_key hk, ?_, responseInv_of_no_response hv⟩
  · rw [hrk]
    exact wf_putWords [] _ rfl (by rw [scheduleWords_length]; omega)
  · simp only [PhaseInv, hp, hv, Bool.false_eq_true, if_false]
    exact ⟨hk, hlow, hhigh, key, hrk⟩

/-- A response with status OK is sound where RK, KV and PH are. -/
theorem sound_respond_ok {ph : Phase} {d : Block} {s : State} (hwf : Memory.wf s.rk = true) (hkey : KeyInv s)
    (hphase : PhaseInv (respond ph .ok d s)) : Sound (respond ph .ok d s) :=
  ⟨hwf, hkey, hphase, fun _ => .inl rfl⟩

/-- The response of KEXP is sound, whatever the state before it was. -/
theorem sound_kexp_response (key d : Block) (s : State) :
    Sound (respond .kexp .ok d (setKV { s with rk := scheduleMemory (expand key), wi := 43 })) :=
  sound_respond_ok (wf_scheduleMemory _) (fun _ => ⟨key, rfl⟩) (show true = true from rfl)

theorem sound_raiseFault {f : CommandFault} {s : State} (hwf : Memory.wf s.rk = true) (hkey : KeyInv s)
    (hf : f = .noKey → s.kv = false) : Sound (raiseFault f s) := by
  refine ⟨hwf, hkey, hf, fun _ => .inr ⟨?_, rfl⟩⟩
  cases f with
  | illegalCommand => exact .inl rfl
  | noKey => exact .inr rfl

/-! ### Every step keeps soundness -/

/-- A step of a micro-sequence, not the last, keeps a sound state sound. -/
theorem microStep_sound {s t : State} (hl : atLastStep s = false) (h : microStep s = .ok t) (hs : Sound s)
    (hv : s.respValid = false) : Sound t ∧ t.respValid = false := by
  obtain ⟨hwf, hkey, hphase, -⟩ := id hs
  rcases microStep_cases h with ⟨hp, -⟩ | ⟨hp, st, -, rfl⟩ | ⟨hp, st, -, rfl⟩ | ⟨-, -, -, rfl⟩
  · obtain ⟨hk, key, hr⟩ := hs.kexpRunning hp hv
    obtain ⟨e, hr'⟩ := hr.microStep hl
    obtain rfl : t = nextKexp key s := Except.ok.inj (h.symm.trans e)
    exact ⟨hr'.sound hk hv, hv⟩
  · obtain ⟨hk, hr⟩ := (phaseInv_transform_iff (.inl hp)).1 hphase
    have hn : s.rnd.toNat ≠ 10 := rnd_ne (v := 10) (by simpa [atLastStep, hp] using hl)
    have hr' : (s.rnd + 1).toNat ≤ 10 := by rw [BitVec.toNat_add]; simp; omega
    have hphase' := (phaseInv_transform_iff (s := { s with st := st, rnd := s.rnd + 1 }) (.inl hp)).2 ⟨hk, hr'⟩
    exact ⟨⟨hwf, hkey, hphase', responseInv_of_no_response hv⟩, hv⟩
  · obtain ⟨hk, hr⟩ := (phaseInv_transform_iff (.inr hp)).1 hphase
    have hn : s.rnd.toNat ≠ 0 := rnd_ne (v := 0) (by simpa [atLastStep, hp] using hl)
    have hr' : (s.rnd - 1).toNat ≤ 10 := by rw [BitVec.toNat_sub]; simp; omega
    have hphase' := (phaseInv_transform_iff (s := { s with st := st, rnd := s.rnd - 1 }) (.inr hp)).2 ⟨hk, hr'⟩
    exact ⟨⟨hwf, hkey, hphase', responseInv_of_no_response hv⟩, hv⟩
  · exact ⟨hs, hv⟩

theorem advance_sound {k : Nat} {s t : State} (h : advance k s = .ok t) (hs : Sound s) (hv : s.respValid = false) :
    Sound t ∧ t.respValid = false :=
  advance_keeps (P := fun u => Sound u ∧ u.respValid = false)
    (fun _ _ hl hm hu => microStep_sound hl hm hu.1 hu.2) h ⟨hs, hv⟩

/-- The last step of a command that is not KEXP keeps a sound state sound. -/
theorem lastStep_sound {s t : State} (hp : s.ph ≠ .kexp) (h : lastStep s = .ok t) (hs : Sound s) : Sound t := by
  obtain ⟨hwf, hkey, hphase, -⟩ := id hs
  rcases lastStep_cases h with ⟨-, rfl⟩ | ⟨hk, -⟩ | ⟨he, st, -, rfl⟩ | ⟨hd, st, -, rfl⟩ | ⟨n, k, hn, -, rfl⟩ |
    ⟨a, b, -, rfl⟩ | ⟨f, hf, rfl⟩
  · exact hs
  · exact absurd hk hp
  · exact sound_respond_ok hwf hkey ((phaseInv_transform_iff (.inl he)).1 hphase)
  · exact sound_respond_ok hwf hkey ((phaseInv_transform_iff (.inr hd)).1 hphase)
  · exact sound_respond_ok hwf hkey ((phaseInv_rdrk_iff hn).1 hphase)
  · exact sound_respond_ok hwf hkey (phaseInv_gfmul rfl)
  · exact sound_raiseFault hwf hkey ((phaseInv_err_iff hf).1 hphase)

/-- A command finished keeps a sound state sound. For KEXP the last step alone does not tell: it is the 40 steps before
it that bring WI to 43, so that RK is a whole schedule. -/
theorem finish_sound {s t : State} (h : finish s = .ok t) (hs : Sound s) (hv : s.respValid = false) : Sound t := by
  by_cases hp : s.ph = .kexp
  · obtain ⟨-, key, hr⟩ := hs.kexpRunning hp hv
    obtain rfl := Except.ok.inj (h.symm.trans hr.finish)
    exact sound_kexp_response key _ s
  · obtain ⟨u, hu, hl⟩ := finish_cases h
    exact lastStep_sound (advance_ph hu ▸ hp) hl (advance_sound hu hs hv).1

theorem workEdge_sound {s t : State} (h : workEdge s = .ok t) (hs : Sound s) (hv : s.respValid = false) : Sound t := by
  rcases workEdge_cases h with ⟨-, hf⟩ | ⟨-, u, hu, rfl⟩
  · exact finish_sound hf hs hv
  · exact (advance_sound hu hs hv).1

/-- The acceptance of a command keeps a sound state sound, and gives no response yet. -/
theorem begin_sound (i : Instr) {s : State} (hs : Sound s) (hv : s.respValid = false) :
    Sound (begin i s) ∧ (begin i s).respValid = false := by
  obtain ⟨hwf, hkey, -, -⟩ := hs
  cases hf : commandFault i s with
  | some f =>
    rw [begin_of_fault hf]
    exact ⟨⟨hwf, hkey, fun e => commandFault_noKey (e ▸ hf), responseInv_of_no_response hv⟩, hv⟩
  | none =>
    rcases commandFault_cases i s with ⟨-, hi, hk⟩ | ⟨hf', -⟩ | ⟨hf', -⟩
    · cases i with
      | kexp key =>
        have hr : KexpRunning key (begin (.kexp key) s) :=
          ⟨rfl, Nat.le_refl 4, (by decide : 4 ≤ 43), keyMemory_eq key⟩
        exact ⟨hr.sound rfl hv, hv⟩
      | enc block =>
        have hk : s.kv = true := by simpa using hk
        simp only [begin, hf]
        exact ⟨⟨hwf, hkey, ⟨hk, Nat.zero_le 10⟩, responseInv_of_no_response hv⟩, hv⟩
      | dec block =>
        have hk : s.kv = true := by simpa using hk
        simp only [begin, hf]
        exact ⟨⟨hwf, hkey, ⟨hk, Nat.le_refl 10⟩, responseInv_of_no_response hv⟩, hv⟩
      | rdrk n =>
        have hk : s.kv = true := by simpa using hk
        simp only [begin, hf]
        exact ⟨⟨hwf, hkey, ⟨hk, hi⟩, responseInv_of_no_response hv⟩, hv⟩
      | gfmul a b => exact ⟨⟨hwf, hkey, trivial, responseInv_of_no_response hv⟩, hv⟩
    · simp [hf] at hf'
    · simp [hf] at hf'

theorem accept_sound (cmd : BitVec 8) (din : BitVec 128) {s : State} (hs : Sound s) (hv : s.respValid = false) :
    Sound (accept cmd din s) := by
  obtain ⟨hb, hv'⟩ : Sound (beginWord cmd din s) ∧ (beginWord cmd din s).respValid = false := by
    unfold beginWord
    split
    · exact begin_sound _ hs hv
    · obtain ⟨hwf, hkey, -, -⟩ := hs
      exact ⟨⟨hwf, hkey, (phaseInv_err_iff rfl).2 (by simp), responseInv_of_no_response hv⟩, hv⟩
  unfold accept
  rw [← hv']
  exact hb

/-- A clock edge keeps a sound state sound, whatever is on the pins. -/
theorem clockEdge_sound {p : Pins} {s t : State} (h : clockEdge p s = .ok t) (hs : Sound s) : Sound t := by
  obtain ⟨hwf, hkey, hphase, -⟩ := id hs
  rcases clockEdge_cases h with ⟨-, rfl⟩ | ⟨-, hp, -, hw⟩ | ⟨-, hp, -, rfl⟩ | ⟨-, -, -, rfl⟩ | ⟨-, -, hv, hw⟩
  · exact ⟨rfl, keyInv_of_no_key rfl, rfl, responseInv_of_no_response rfl⟩
  · exact workEdge_sound hw (accept_sound p.cmd p.din hs ((phaseInv_idle_iff hp).1 hphase)) rfl
  · exact ⟨hwf, hkey, (phaseInv_idle_iff (s := { s with respValid := false }) hp).2 rfl, responseInv_of_no_response rfl⟩
  · exact ⟨hwf, hkey, rfl, responseInv_of_no_response rfl⟩
  · exact workEdge_sound hw hs hv

/-- A command's meaning answers a sound state. -/
theorem exec_sound {i : Instr} {s t : State} (h : exec i s = .next t) (hs : Sound s) : Sound t := by
  obtain ⟨hwf, hkey, -, -⟩ := hs
  rcases exec_next_cases h with ⟨f, hf, rfl⟩ | ⟨key, -, rfl⟩ | ⟨b, rk, -, hk, -, rfl⟩ | ⟨b, rk, -, hk, -, rfl⟩ |
    ⟨n, k, -, hk, hn, -, rfl⟩ | ⟨a, b, -, rfl⟩
  · exact sound_raiseFault hwf hkey fun e => commandFault_noKey (e ▸ hf)
  · exact sound_kexp_response key _ s
  · exact sound_respond_ok hwf hkey ⟨hk, Nat.le_refl 10⟩
  · exact sound_respond_ok hwf hkey ⟨hk, Nat.zero_le 10⟩
  · exact sound_respond_ok hwf hkey ⟨hk, (legalRoundKey_iff n).2 hn⟩
  · exact sound_respond_ok hwf hkey (phaseInv_gfmul rfl)

theorem runWord_sound {cmd : BitVec 8} {din : BitVec 128} {s t : State} (h : runWord cmd din s = .next t)
    (hs : Sound s) : Sound t := by
  rcases runWord_cases h with ⟨i, -, he⟩ | ⟨e, -, rfl⟩
  · exact exec_sound he hs
  · obtain ⟨hwf, hkey, -, -⟩ := hs
    exact sound_raiseFault hwf hkey fun e => nomatch e

/-! ### PH in the response cycle -/

/-- PH of a command that raises no fault (10_state.md R24). -/
def phaseOf : Instr → Phase
  | .kexp _ => .kexp
  | .enc _ => .enc
  | .dec _ => .dec
  | .rdrk n => .rdrk n
  | .gfmul a b => .gfmul a b

/-- What a meaning answers is a response cycle (log 18). -/
theorem exec_response_cycle {i : Instr} {s t : State} (h : exec i s = .next t) :
    t.respValid = true ∧ t.ph ≠ .idle := by
  rcases exec_next_cases h with ⟨_, -, rfl⟩ | ⟨_, -, rfl⟩ | ⟨_, _, -, -, -, rfl⟩ | ⟨_, _, -, -, -, rfl⟩ |
    ⟨_, _, -, -, -, -, rfl⟩ | ⟨_, _, -, rfl⟩
  all_goals exact ⟨rfl, Phase.noConfusion⟩

theorem exec_ph_of_no_fault {i : Instr} {s t : State} (hf : commandFault i s = none) (h : exec i s = .next t) :
    t.ph = phaseOf i := by
  rcases exec_next_cases h with ⟨f, hf', -⟩ | ⟨_, rfl, rfl⟩ | ⟨_, _, rfl, -, -, rfl⟩ | ⟨_, _, rfl, -, -, rfl⟩ |
    ⟨_, _, rfl, -, -, -, rfl⟩ | ⟨_, _, rfl, rfl⟩
  · simp [hf] at hf'
  all_goals rfl

theorem exec_ph_of_fault {i : Instr} {s t : State} {f : CommandFault} (hf : commandFault i s = some f)
    (h : exec i s = .next t) : t.ph = .err f := by
  rw [exec_of_fault hf] at h
  cases h
  rfl

/-! ### The obligations of 10_state.md -/

/-- Settles O51, by what a step can do: a clock edge or a command's meaning, each of which keeps soundness. -/
theorem stepKeepsInvariant : Obligations.StepKeepsInvariant := by
  intro s t hs h
  rcases step_cases h with ⟨-, he⟩ | ⟨p, rest, -, he⟩ | ⟨cmd, din, rest, -, -, hw⟩ | ⟨cmd, din, rest, -, -, he⟩
  · exact clockEdge_sound he hs
  · exact clockEdge_sound he hs
  · exact runWord_sound hw hs
  · exact clockEdge_sound he hs

/-- Settles O52: with no value in RK, KV 0, PH IDLE and no response, each part of soundness is met. -/
theorem resetHasInvariant : Obligations.ResetHasInvariant :=
  ⟨rfl, keyInv_of_no_key reset_kv, reset_respValid, responseInv_of_no_response reset_respValid⟩

/-- Settles O49, by what a step can do: the edges and words that change RK or KV are those of `clockEdge_keyMaterial`
and `runWord_keyMaterial`. -/
theorem keyMaterialImmutable : Obligations.KeyMaterialImmutable := by
  intro s t h hne
  have hchange : ¬ (t.rk = s.rk ∧ t.kv = s.kv) := by tauto
  rcases step_cases h with ⟨-, he⟩ | ⟨p, rest, hh, he⟩ | ⟨cmd, din, rest, hh, hp, hw⟩ | ⟨cmd, din, rest, -, hp, he⟩
  · rcases clockEdge_keyMaterial he with hsame | hr | hk | ⟨-, -, hv, -⟩
    · exact absurd hsame hchange
    · cases hr
    · exact .inr (.inl hk)
    · cases hv
  · rcases clockEdge_keyMaterial he with hsame | hr | hk | ⟨hr, hp, hv, hc⟩
    · exact absurd hsame hchange
    · exact .inl ⟨p, rest, hh, hr⟩
    · exact .inr (.inl hk)
    · exact .inr (.inr ⟨hp, .inl ⟨p, rest, hh, hr, hv, hc⟩⟩)
  · by_cases hc : cmd = 0x10
    · exact .inr (.inr ⟨hp, .inr ⟨din, rest, hc ▸ hh⟩⟩)
    · exact absurd (runWord_keyMaterial hc hw) hchange
  · rcases clockEdge_keyMaterial he with hsame | hr | hk | ⟨-, hi, -, -⟩
    · exact absurd hsame hchange
    · cases hr
    · exact .inr (.inl hk)
    · exact absurd hi hp

/-- Settles O24: the reads of all three commands stay inside RK, where the only fault is rkNoValue. -/
theorem unwrittenScheduleFaults : Obligations.UnwrittenScheduleFaults := by
  refine ⟨?_, ?_⟩
  · intro i s f hi hk hr
    obtain rfl := readSchedule_error hr
    obtain ⟨b, rfl⟩ | ⟨b, rfl⟩ := hi
    · simp only [exec, execEnc, commandFault_of_key (i := .enc b) hk rfl, hr]
    · simp only [exec, execDec, commandFault_of_key (i := .dec b) hk rfl, hr]
  · intro n s f hn hk hr
    obtain rfl := readRound_error hn hr
    have hf : commandFault (.rdrk n) s = none := commandFault_of_key hk ((legalRoundKey_iff n).2 hn)
    simp only [exec, execRdrk, hf, hr]

/-- Settles O56: a meaning answers a response cycle, and PH there is `phaseOf` the command or the fault it raised. -/
theorem responseCyclePhase : Obligations.ResponseCyclePhase := by
  refine ⟨fun i s t h => ?_, fun _ _ _ h => exec_ph_of_no_fault rfl h, fun _ s _ hk h => ?_, fun _ s _ hk h => ?_,
    fun n s _ hn hk h => ?_, fun _ _ _ _ h => exec_ph_of_no_fault rfl h, fun i s t hk hi hkexp hgfmul h => ?_,
    fun cmd din s t e hd h => ?_⟩
  · obtain ⟨hv, hp⟩ := exec_response_cycle h
    exact ⟨hv, decide_eq_false hp⟩
  · exact exec_ph_of_no_fault (commandFault_of_key hk rfl) h
  · exact exec_ph_of_no_fault (commandFault_of_key hk rfl) h
  · have hi : (Instr.rdrk n).wf = true := (legalRoundKey_iff n).2 hn
    exact exec_ph_of_no_fault (commandFault_of_key hk hi) h
  · exact exec_ph_of_fault (commandFault_of_no_key hk hi hkexp hgfmul) h
  · rcases runWord_cases h with ⟨i, hd', -⟩ | ⟨_, -, rfl⟩
    · simp [hd] at hd'
    · rfl

/-- Settles O15: no cell is listed, so no word of RK holds a value. -/
theorem resetState : Obligations.ResetState := by
  refine ⟨reset_kv, reset_ph, reset_respValid, rfl, fun i hi => ?_⟩
  rw [reset_rk, readWord, if_pos (show i < Config.NWORDS from hi)]
  rfl

end Sys2Proof.Machine
end

section
/-! PROOFS. The field behind SBOX (40_gf_arithmetic.md R81, R84): the product of the model is bilinear, commutative and
associative, proved from the bits of its factors. -/

namespace Sys2Proof.Machine

/-! ### Proofs over all bytes by their bits -/

/-- A byte is the XOR of its bits, each in its place. -/
theorem foldl_bits_eq (b : Byte) :
    [0, 1, 2, 3, 4, 5, 6, 7].foldl (fun p i => if b.getLsbD i then p ^^^ (1#8 <<< i) else p) 0 = b := by
  revert b
  decide +kernel

/-- What holds of the eight one-bit bytes and is kept by XOR holds of every byte. -/
theorem byte_xor_induction {P : Byte → Prop} (bit : ∀ i < 8, P (1#8 <<< i))
    (xor : ∀ x y, P x → P y → P (x ^^^ y)) (b : Byte) : P b := by
  have hfold (l : List Nat) (hl : ∀ i ∈ l, i < 8) (p : Byte) (hp : P p) :
      P (l.foldl (fun p i => if b.getLsbD i then p ^^^ (1#8 <<< i) else p) p) := by
    induction l generalizing p with
    | nil => exact hp
    | cons i l ih =>
      obtain ⟨hi, hl⟩ := List.forall_mem_cons.1 hl
      refine ih hl _ ?_
      dsimp only
      split
      · exact xor _ _ hp (bit i hi)
      · exact hp
  have hzero : P 0 := xor _ _ (bit 0 (by decide)) (bit 0 (by decide))
  exact foldl_bits_eq b ▸ hfold _ (by decide) 0 hzero

/-! ### The product is bilinear, commutative and associative (40_gf_arithmetic.md R84) -/

theorem gfmul_xor_right (a b c : Byte) : gfmul a (b ^^^ c) = gfmul a b ^^^ gfmul a c := by
  simp only [gfmul_eq, polyMul_xor, polyReduce_xor]

/-- The carry-less product distributes over XOR in its first factor too. -/
theorem polyMul_xor_left (a b c : Byte) : polyMul (a ^^^ b) c = polyMul a c ^^^ polyMul b c := by
  have hfold (l : List Nat) (p q : BitVec 15) :
      l.foldl (fun p i => if c.getLsbD i then p ^^^ ((a ^^^ b).setWidth 15 <<< i) else p) (p ^^^ q) =
        l.foldl (fun p i => if c.getLsbD i then p ^^^ (a.setWidth 15 <<< i) else p) p ^^^
          l.foldl (fun p i => if c.getLsbD i then p ^^^ (b.setWidth 15 <<< i) else p) q := by
    induction l generalizing p q with
    | nil => rfl
    | cons i l ih =>
      simp only [List.foldl_cons]
      rw [← ih]
      congr 1
      split
      · rw [BitVec.setWidth_xor, BitVec.shiftLeft_xor_distrib]
        ac_rfl
      · rfl
  exact hfold _ 0 0

theorem gfmul_xor_left (a b c : Byte) : gfmul (a ^^^ b) c = gfmul a c ^^^ gfmul b c := by
  simp only [gfmul_eq, polyMul_xor_left, polyReduce_xor]

@[simp] theorem gfmul_zero_left (b : Byte) : gfmul 0 b = 0 := by
  simpa using gfmul_xor_left 0 0 b

theorem gfmul_bit_comm : ∀ i < 8, ∀ j < 8, gfmul (1#8 <<< i) (1#8 <<< j) = gfmul (1#8 <<< j) (1#8 <<< i) := by
  decide +kernel

theorem gfmul_comm (a b : Byte) : gfmul a b = gfmul b a := by
  induction a using byte_xor_induction with
  | bit i hi =>
    induction b using byte_xor_induction with
    | bit j hj => exact gfmul_bit_comm i hi j hj
    | xor x y hx hy => rw [gfmul_xor_left, gfmul_xor_right, hx, hy]
  | xor x y hx hy => rw [gfmul_xor_left, gfmul_xor_right, hx, hy]

@[simp] theorem gfmul_one_left (a : Byte) : gfmul 1 a = a := by
  induction a using byte_xor_induction with
  | bit i hi => revert i; decide +kernel
  | xor x y hx hy => rw [gfmul_xor_right, hx, hy]

@[simp] theorem gfmul_one_right (a : Byte) : gfmul a 1 = a := by
  rw [gfmul_comm, gfmul_one_left]

theorem xtime_xor (a b : Byte) : xtime (a ^^^ b) = xtime a ^^^ xtime b := gfmul_xor_right _ _ _

theorem gfmul_bit_xtime : ∀ i < 8, ∀ j < 8,
    gfmul (1#8 <<< i) (xtime (1#8 <<< j)) = xtime (gfmul (1#8 <<< i) (1#8 <<< j)) := by
  decide +kernel

/-- Doubling a factor doubles the product. -/
theorem gfmul_xtime (a b : Byte) : gfmul a (xtime b) = xtime (gfmul a b) := by
  induction a using byte_xor_induction with
  | bit i hi =>
    induction b using byte_xor_induction with
    | bit j hj => exact gfmul_bit_xtime i hi j hj
    | xor x y hx hy => rw [xtime_xor, gfmul_xor_right, gfmul_xor_right, xtime_xor, hx, hy]
  | xor x y hx hy => rw [gfmul_xor_left, gfmul_xor_left, xtime_xor, hx, hy]

/-- What holds of 1 and is kept by doubling and by XOR holds of every byte. -/
theorem byte_xtime_induction {P : Byte → Prop} (one : P 1) (double : ∀ x, P x → P (xtime x))
    (xor : ∀ x y, P x → P y → P (x ^^^ y)) (b : Byte) : P b := by
  have hbit : ∀ i < 7, 1#8 <<< (i + 1) = xtime (1#8 <<< i) := by decide +kernel
  refine byte_xor_induction (fun i hi => ?_) xor b
  induction i with
  | zero => exact one
  | succ i ih => exact hbit i (by omega) ▸ double _ (ih (by omega))

/-- Associativity, by doubling and XOR in the last factor. -/
theorem gfmul_assoc (a b c : Byte) : gfmul (gfmul a b) c = gfmul a (gfmul b c) := by
  induction c using byte_xtime_induction with
  | one => rw [gfmul_one_right, gfmul_one_right]
  | double x hx => rw [gfmul_xtime, gfmul_xtime, gfmul_xtime, hx]
  | xor x y hx hy => rw [gfmul_xor_right, gfmul_xor_right, gfmul_xor_right, hx, hy]

end Sys2Proof.Machine
end

section
/-! PROOFS. The memories of the block (20_memory.md): SBOX as the inverse's affine image, the order of bytes on a bus
and in a 32-bit entry, and that every step keeps the canonical form of RK. -/

namespace Sys2Proof.Machine

/-! ### SBOX and the inverse (20_memory.md R42, R44) -/

/-- The affine map of 20_memory.md R42. -/
def affineImage (b : Byte) : Byte :=
  b ^^^ b.rotateLeft 1 ^^^ b.rotateLeft 2 ^^^ b.rotateLeft 3 ^^^ b.rotateLeft 4 ^^^ 0x63

/-- The byte whose affine image is `SBOX[a]`: the affine map solved for its argument. The two lemmas below tie it to the
table and to the product. -/
def tableInverse (a : Byte) : Byte :=
  (SBOX a).rotateLeft 1 ^^^ (SBOX a).rotateLeft 3 ^^^ (SBOX a).rotateLeft 6 ^^^ 0x05

theorem affineImage_tableInverse (a : Byte) : affineImage (tableInverse a) = SBOX a := by
  revert a
  decide +kernel

theorem gfmul_tableInverse : ∀ a : Byte, a ≠ 0 → gfmul a (tableInverse a) = 1 := by
  decide +kernel

/-- The inverse is unique: with `v` the table's, `b = (v * a) * b = v * (a * b) = v`. -/
theorem eq_tableInverse {a b : Byte} (h : gfmul a b = 1) : b = tableInverse a := by
  have ha : a ≠ 0 := by
    rintro rfl
    rw [gfmul_zero_left] at h
    exact absurd h (by decide)
  calc b = gfmul (gfmul (tableInverse a) a) b := by rw [gfmul_comm _ a, gfmul_tableInverse a ha, gfmul_one_left]
    _ = tableInverse a := by rw [gfmul_assoc, h, gfmul_one_right]

/-- The two tables undo each other and SBOX moves every byte, read off their 256 entries. -/
theorem sbox_invSbox (a : Byte) : INV_SBOX (SBOX a) = a ∧ SBOX (INV_SBOX a) = a ∧ SBOX a ≠ a := by
  revert a
  decide +kernel

/-! ### Bytes on a bus and in a 32-bit entry -/

theorem packBytes_concat (bs : List Byte) (b : Byte) : packBytes (bs ++ [b]) = packBytes bs * 256 + b.toNat := by
  simp only [packBytes, List.foldl_append, List.foldl_cons, List.foldl_nil]

theorem packBytes_lt (bs : List Byte) : packBytes bs < 256 ^ bs.length := by
  induction bs using List.reverseRecOn with
  | nil => decide
  | append_singleton bs b ih =>
    rw [packBytes_concat, List.length_append, List.length_singleton, Nat.pow_succ]
    have hb := b.isLt
    omega

/-- Byte `k` of the list is digit `k` of the packed number, counted from the most significant one. -/
theorem packBytes_digit (bs : List Byte) {k : Nat} (hk : k < bs.length) :
    packBytes bs / 256 ^ (bs.length - 1 - k) % 256 = bs[k].toNat := by
  induction bs using List.reverseRecOn with
  | nil => cases hk
  | append_singleton bs b ih =>
    have hb := b.isLt
    rw [packBytes_concat, List.length_append, List.length_singleton, Nat.add_sub_cancel]
    by_cases hlast : k = bs.length
    · subst hlast
      rw [Nat.sub_self, Nat.pow_zero, Nat.div_one, List.getElem_concat_length rfl]
      omega
    · have hk' : k < bs.length := by rw [List.length_append, List.length_singleton] at hk; omega
      rw [List.getElem_append_left hk', ← ih hk', show bs.length - k = bs.length - 1 - k + 1 by omega, Nat.pow_succ',
        ← Nat.div_div_eq_div_mul, show (packBytes bs * 256 + b.toNat) / 256 = packBytes bs by omega]

/-- Byte `k` of packed bytes, the first in the most significant place (20_memory.md R48). -/
theorem extractLsb'_packBytes {w : Nat} (bs : List Byte) (hw : w = 8 * bs.length) {k : Nat} (hk : k < bs.length) :
    (BitVec.ofNat w (packBytes bs)).extractLsb' (w - 8 - 8 * k) 8 = bs[k] := by
  apply BitVec.eq_of_toNat_eq
  have hlt : packBytes bs < 2 ^ w := by
    rw [hw, Nat.pow_mul]
    exact packBytes_lt bs
  rw [BitVec.extractLsb'_toNat, BitVec.toNat_ofNat, Nat.mod_eq_of_lt hlt, Nat.shiftRight_eq_div_pow,
    show w - 8 - 8 * k = 8 * (bs.length - 1 - k) by omega, Nat.pow_mul]
  exact packBytes_digit bs hk

/-- Two bit strings of `n` bytes are equal when they agree byte by byte. -/
theorem bitVec_ext_bytes {n : Nat} {x y : BitVec (8 * n)}
    (h : ∀ k < n, x.extractLsb' (8 * n - 8 - 8 * k) 8 = y.extractLsb' (8 * n - 8 - 8 * k) 8) : x = y := by
  apply BitVec.eq_of_getLsbD_eq
  intro i hi
  have hbyte := congrArg (·.getLsbD (i % 8)) (h (n - 1 - i / 8) (by omega))
  simpa [show i % 8 < 8 by omega, show 8 * n - 8 - 8 * (n - 1 - i / 8) + i % 8 = i by omega] using hbyte

/-- Byte `k` of a packed block is its byte `k` (20_memory.md R48). -/
theorem busByte_busOfBlock (b : Block) (k : Fin 16) : busByte (busOfBlock b) k = b.get k := by
  have h := extractLsb'_packBytes (w := 128) b.toList (by simp) (k := k) (by simp)
  simpa [busByte, busOfBlock, Vector.get] using h

@[simp] theorem blockOfBus_get (d : BitVec 128) (k : Fin 16) : (blockOfBus d).get k = busByte d k := get_ofFn _ _

theorem blockOfBus_busOfBlock (b : Block) : blockOfBus (busOfBlock b) = b :=
  vector_ext fun k => by rw [blockOfBus_get, busByte_busOfBlock]

theorem busOfBlock_blockOfBus (d : BitVec 128) : busOfBlock (blockOfBus d) = d := by
  refine bitVec_ext_bytes (n := 16) fun k hk => ?_
  have h := busByte_busOfBlock (blockOfBus d) ⟨k, hk⟩
  rwa [blockOfBus_get] at h

/-- Byte `k` of a word in a 32-bit entry (20_memory.md R48). -/
theorem wordPack_byte (w : Word) (k : Fin 4) : (wordPack w).extractLsb' (24 - 8 * k.val) 8 = w.get k := by
  have h := extractLsb'_packBytes (w := 32) w.toList (by simp) (k := k) (by simp)
  simpa [wordPack, Vector.get] using h

/-- A rotation left by 8 moves each byte one place towards the most significant end, the first to the last place. -/
theorem rotateLeft_eight_byte (x : BitVec 32) (k : Fin 4) :
    (x.rotateLeft 8).extractLsb' (24 - 8 * k.val) 8 = x.extractLsb' (24 - 8 * (k + 1).val) 8 := by
  ext i hi
  rw [BitVec.getElem_extractLsb', BitVec.getElem_extractLsb', BitVec.getLsbD_rotateLeft_of_le (by decide)]
  by_cases hlast : k = 3
  · subst hlast
    simp [hi]
  · have hsucc : (k + 1).val = k.val + 1 := by simp [Fin.val_add_one, Fin.last, hlast]
    have hbit : 24 - 8 * k.val + i - 8 = 24 - 8 * (k + 1).val + i := by omega
    simp [show ¬ 24 - 8 * k.val + i < 8 by omega, show 24 - 8 * k.val + i < 32 by omega, hbit]

theorem wordPack_rotWord (t : Word) : wordPack (rotWord t) = (wordPack t).rotateLeft 8 := by
  refine bitVec_ext_bytes (n := 4) fun k hk => ?_
  calc (wordPack (rotWord t)).extractLsb' (24 - 8 * k) 8 = t.get (⟨k, hk⟩ + 1) := by
        rw [wordPack_byte (rotWord t) ⟨k, hk⟩, rotWord_get]
    _ = ((wordPack t).rotateLeft 8).extractLsb' (24 - 8 * k) 8 := by
        rw [rotateLeft_eight_byte _ ⟨k, hk⟩, wordPack_byte]

/-! ### The canonical form of RK -/

/-- A sequence of two operations answers where both do. -/
theorem bind_ok {α β : Type} {x : Except Fault α} {g : α → Except Fault β} {b : β} (h : x >>= g = .ok b) :
    ∃ a, x = .ok a ∧ g a = .ok b := by
  cases x with
  | error e => cases h
  | ok a => exact ⟨a, rfl, h⟩

theorem wf_keyMemory (key : Block) : Memory.wf (keyMemory key) = true := by
  rw [keyMemory_eq]
  exact wf_putWords [] _ rfl (by rw [scheduleWords_length]; decide)

/-- The schedule word that a KEXP in progress writes lies inside RK (20_memory.md R51). -/
theorem produceWord_wf {s : State} {rk : List Host.Cell} (h : produceWord s = .ok rk) (hwf : Memory.wf s.rk = true) :
    Memory.wf rk = true := by
  unfold produceWord at h
  split at h
  · obtain ⟨_, -, h⟩ := bind_ok h
    obtain ⟨_, -, h⟩ := bind_ok h
    exact wf_writeWord hwf h
  · cases h

theorem microStep_wf {s t : State} (h : microStep s = .ok t) (hwf : Memory.wf s.rk = true) : Memory.wf t.rk = true := by
  rcases microStep_cases h with ⟨-, rk, hr, rfl⟩ | ⟨-, _, -, rfl⟩ | ⟨-, _, -, rfl⟩ | ⟨-, -, -, rfl⟩
  case inl => exact produceWord_wf hr hwf
  all_goals exact hwf

theorem lastStep_wf {s t : State} (h : lastStep s = .ok t) (hwf : Memory.wf s.rk = true) : Memory.wf t.rk = true := by
  rcases lastStep_cases h with ⟨-, rfl⟩ | ⟨-, rk, hr, rfl⟩ | ⟨-, _, -, rfl⟩ | ⟨-, _, -, rfl⟩ | ⟨_, _, -, -, rfl⟩ |
    ⟨_, _, -, rfl⟩ | ⟨_, -, rfl⟩
  case inr.inl => exact produceWord_wf hr hwf
  all_goals exact hwf

theorem advance_wf {k : Nat} {s t : State} (h : advance k s = .ok t) (hwf : Memory.wf s.rk = true) :
    Memory.wf t.rk = true :=
  advance_keeps (P := fun u => Memory.wf u.rk = true) (fun _ _ _ => microStep_wf) h hwf

theorem workEdge_wf {s t : State} (h : workEdge s = .ok t) (hwf : Memory.wf s.rk = true) : Memory.wf t.rk = true := by
  rcases workEdge_cases h with ⟨-, hf⟩ | ⟨-, u, hu, rfl⟩
  · obtain ⟨u, hu, hl⟩ := finish_cases hf
    exact lastStep_wf hl (advance_wf hu hwf)
  · show Memory.wf u.rk = true
    exact advance_wf hu hwf

/-- Acceptance keeps RK, or fills it with the words of a new key (41_key_scheduler.md R96). -/
theorem begin_wf (i : Instr) {s : State} (hwf : Memory.wf s.rk = true) : Memory.wf (begin i s).rk = true := by
  by_cases hi : ∃ key, i = .kexp key
  · obtain ⟨key, rfl⟩ := hi
    exact wf_keyMemory key
  · obtain ⟨-, hrk, -⟩ := begin_keyMaterial (s := s) (not_exists.1 hi)
    exact hrk ▸ hwf

theorem accept_wf (cmd : BitVec 8) (din : BitVec 128) {s : State} (hwf : Memory.wf s.rk = true) :
    Memory.wf (accept cmd din s).rk = true := by
  show Memory.wf (beginWord cmd din s).rk = true
  unfold beginWord
  split
  · exact begin_wf _ hwf
  · exact hwf

/-- A clock edge keeps the canonical form, whatever is on the pins. -/
theorem clockEdge_wf {p : Pins} {s t : State} (h : clockEdge p s = .ok t) (hwf : Memory.wf s.rk = true) :
    Memory.wf t.rk = true := by
  rcases clockEdge_cases h with ⟨-, rfl⟩ | ⟨-, -, -, hw⟩ | ⟨-, -, -, rfl⟩ | ⟨-, -, -, rfl⟩ | ⟨-, -, -, hw⟩
  · rfl
  · exact workEdge_wf hw (accept_wf p.cmd p.din hwf)
  · exact hwf
  · exact hwf
  · exact workEdge_wf hw hwf

/-- Only KEXP writes RK, and what it writes is a whole schedule. -/
theorem exec_wf {i : Instr} {s t : State} (h : exec i s = .next t) (hwf : Memory.wf s.rk = true) :
    Memory.wf t.rk = true := by
  by_cases hi : ∃ key, i = .kexp key
  · obtain ⟨key, rfl⟩ := hi
    rw [exec_kexp] at h
    cases h
    exact wf_scheduleMemory _
  · exact (exec_keyMaterial (not_exists.1 hi) h).1 ▸ hwf

theorem runWord_wf {cmd : BitVec 8} {din : BitVec 128} {s t : State} (h : runWord cmd din s = .next t)
    (hwf : Memory.wf s.rk = true) : Memory.wf t.rk = true := by
  rcases runWord_cases h with ⟨i, -, he⟩ | ⟨_, -, rfl⟩
  · exact exec_wf he hwf
  · exact hwf

/-! ### The obligations of 20_memory.md -/

/-- Settles O6: a packed byte is a digit in base 256, and bit strings that agree byte by byte are equal. -/
theorem busPacking : Obligations.BusPacking :=
  ⟨busByte_busOfBlock, busOfBlock_blockOfBus, blockOfBus_busOfBlock, wordPack_byte, wordPack_rotWord, by decide⟩

/-- Settles O37: the table's own candidate is an inverse, and associativity makes it the only one. -/
theorem sboxIsAffineInverse : Obligations.SboxIsAffineInverse := by
  refine ⟨fun a b h => ?_, fun a ha => ⟨tableInverse a, gfmul_tableInverse a ha⟩, by decide, by decide, by decide⟩
  have hb : b = tableInverse a := by
    obtain ⟨rfl, rfl⟩ | h := h
    · decide
    · exact eq_tableInverse h
  rw [hb]
  exact (affineImage_tableInverse a).symm

/-- Settles O50: of what a step can do, only KEXP and reset write RK, and what they write is in canonical form. -/
theorem stepKeepsMemoryForm : Obligations.StepKeepsMemoryForm := by
  intro s t hwf h
  rcases step_cases h with ⟨-, he⟩ | ⟨p, rest, -, he⟩ | ⟨cmd, din, rest, -, -, hw⟩ | ⟨cmd, din, rest, -, -, he⟩
  · exact clockEdge_wf he hwf
  · exact clockEdge_wf he hwf
  · exact runWord_wf hw hwf
  · exact clockEdge_wf he hwf

/-- Settles O38: a function with an inverse on both sides is a permutation. -/
theorem sboxPermutation : Obligations.SboxPermutation := by
  have hl : Function.LeftInverse INV_SBOX SBOX := fun a => (sbox_invSbox a).1
  have hr : Function.RightInverse INV_SBOX SBOX := fun a => (sbox_invSbox a).2.1
  exact ⟨⟨hl.injective, hr.surjective⟩, ⟨hr.injective, hl.surjective⟩, sbox_invSbox⟩

end Sys2Proof.Machine
end

section
/-! PROOFS. The command word and its decoder (30_encoding.md R60 to R70): the two fields of a word, what decodes and to
what, and that encoder and decoder undo each other. -/

namespace Sys2Proof.Machine

/-! ### The two fields of a command word -/

@[simp] theorem cmdOp_cmdWord (op n : BitVec 4) : cmdOp (cmdWord op n) = op :=
  BitVec.extractLsb'_append_eq_left

@[simp] theorem cmdN_cmdWord (op n : BitVec 4) : cmdN (cmdWord op n) = n :=
  BitVec.extractLsb'_append_eq_right

theorem cmdOp_toNat (cmd : BitVec 8) : (cmdOp cmd).toNat = cmd.toNat / 16 := by
  have hlt := cmd.isLt
  rw [cmdOp, BitVec.extractLsb'_toNat, Nat.shiftRight_eq_div_pow]
  omega

theorem cmdN_toNat (cmd : BitVec 8) : (cmdN cmd).toNat = cmd.toNat % 16 := by
  rw [cmdN, BitVec.extractLsb'_toNat, Nat.shiftRight_zero]

theorem eq_cmdWord_of_fields {cmd : BitVec 8} {op n : BitVec 4} (hop : cmdOp cmd = op) (hn : cmdN cmd = n) :
    cmd = cmdWord op n := by
  rw [← hop, ← hn, cmdWord_fields]

/-- A word is the one its quotient and remainder by 16 name (30_encoding.md R60). -/
theorem eq_cmdWord {cmd : BitVec 8} {op n : BitVec 4} (hop : cmd.toNat / 16 = op.toNat) (hn : cmd.toNat % 16 = n.toNat) :
    cmd = cmdWord op n := by
  rw [← cmdOp_toNat] at hop
  rw [← cmdN_toNat] at hn
  exact eq_cmdWord_of_fields (BitVec.eq_of_toNat_eq hop) (BitVec.eq_of_toNat_eq hn)

theorem cmdWord_div (op n : BitVec 4) : (cmdWord op n).toNat / 16 = op.toNat := by
  rw [← cmdOp_toNat, cmdOp_cmdWord]

theorem cmdWord_mod (op n : BitVec 4) : (cmdWord op n).toNat % 16 = n.toNat := by
  rw [← cmdN_toNat, cmdN_cmdWord]

/-! ### The decoder -/

/-- Everything the decoder can answer with a command (30_encoding.md R64, R70). -/
theorem decode_ok_cases {cmd : BitVec 8} {din : BitVec 128} {i : Instr} (h : decode cmd din = .ok i) :
    (cmd = cmdWord 1 0 ∧ i = .kexp (blockOfBus din)) ∨ (cmd = cmdWord 2 0 ∧ i = .enc (blockOfBus din)) ∨
    (cmd = cmdWord 3 0 ∧ i = .dec (blockOfBus din)) ∨ (∃ n, n ≤ 10 ∧ cmd = cmdWord 4 n ∧ i = .rdrk n) ∨
    (cmd = cmdWord 5 0 ∧ i = .gfmul (busByte din 0) (busByte din 1)) := by
  simp only [decode] at h
  split_ifs at h with hkexp henc hdec hrdrk hgfmul <;> obtain rfl := Except.ok.inj h
  · exact .inl ⟨eq_cmdWord_of_fields hkexp.1 hkexp.2, rfl⟩
  · exact .inr (.inl ⟨eq_cmdWord_of_fields henc.1 henc.2, rfl⟩)
  · exact .inr (.inr (.inl ⟨eq_cmdWord_of_fields hdec.1 hdec.2, rfl⟩))
  · exact .inr (.inr (.inr (.inl ⟨cmdN cmd, hrdrk.2, eq_cmdWord_of_fields hrdrk.1 rfl, rfl⟩)))
  · exact .inr (.inr (.inr (.inr ⟨eq_cmdWord_of_fields hgfmul.1 hgfmul.2, rfl⟩)))

@[simp] theorem decode_kexp_word (din : BitVec 128) : decode (cmdWord 1 0) din = .ok (.kexp (blockOfBus din)) := rfl

@[simp] theorem decode_enc_word (din : BitVec 128) : decode (cmdWord 2 0) din = .ok (.enc (blockOfBus din)) := rfl

@[simp] theorem decode_dec_word (din : BitVec 128) : decode (cmdWord 3 0) din = .ok (.dec (blockOfBus din)) := rfl

theorem decode_rdrk_word (din : BitVec 128) {n : BitVec 4} (hn : n ≤ 10) :
    decode (cmdWord 4 n) din = .ok (.rdrk n) := by
  simpa [decode] using hn

@[simp] theorem decode_gfmul_word (din : BitVec 128) :
    decode (cmdWord 5 0) din = .ok (.gfmul (busByte din 0) (busByte din 1)) := rfl

/-! ### Encoder and decoder -/

@[simp] theorem busByte_zero_factorBlock (a b : Byte) : busByte (busOfBlock (factorBlock a b)) 0 = a :=
  (busByte_busOfBlock (factorBlock a b) 0).trans (get_ofFn _ _)

@[simp] theorem busByte_one_factorBlock (a b : Byte) : busByte (busOfBlock (factorBlock a b)) 1 = b :=
  (busByte_busOfBlock (factorBlock a b) 1).trans (get_ofFn _ _)

theorem wf_rdrk_iff (n : BitVec 4) : (Instr.rdrk n).wf = true ↔ n ≤ 10 := legalRoundKey_iff n

/-- Every well-formed command has a legal command word (30_encoding.md R64). -/
theorem encode_legal {i : Instr} (hi : i.wf = true) : Laws.LegalWord.Statement i := by
  cases i with
  | kexp key => exact Laws.LegalWord.kexp key
  | enc block => exact Laws.LegalWord.enc block
  | dec block => exact Laws.LegalWord.dec block
  | rdrk n => exact Laws.LegalWord.rdrk n
  | gfmul a b => exact Laws.LegalWord.gfmul a b

/-! ### The obligations on the decoder -/

/-- Settles O1: the decoder's equation at each command's word, and a block packed on the bus is unpacked again. -/
theorem decodeOfEncode : Obligations.DecodeOfEncode := by
  intro i hi
  cases i with
  | kexp key => simp only [encode, decode_kexp_word, blockOfBus_busOfBlock]
  | enc block => simp only [encode, decode_enc_word, blockOfBus_busOfBlock]
  | dec block => simp only [encode, decode_dec_word, blockOfBus_busOfBlock]
  | rdrk n => exact decode_rdrk_word _ ((wf_rdrk_iff n).1 hi)
  | gfmul a b => simp only [encode, decode_gfmul_word, busByte_zero_factorBlock, busByte_one_factorBlock]

/-- Settles O2, by what the decoder can answer; a bus is the packing of its own bytes. -/
theorem encodeOfDecode : Obligations.EncodeOfDecode := by
  intro cmd din i h
  rcases decode_ok_cases h with ⟨rfl, rfl⟩ | ⟨rfl, rfl⟩ | ⟨rfl, rfl⟩ | ⟨n, hn, rfl, rfl⟩ | ⟨rfl, rfl⟩
  · exact ⟨rfl, rfl, fun _ => busOfBlock_blockOfBus din, by simp⟩
  · exact ⟨rfl, rfl, fun _ => busOfBlock_blockOfBus din, by simp⟩
  · exact ⟨rfl, rfl, fun _ => busOfBlock_blockOfBus din, by simp⟩
  · exact ⟨(wf_rdrk_iff n).2 hn, rfl, by simp, by simp⟩
  · refine ⟨rfl, rfl, by simp, ?_⟩
    rintro a b ⟨⟩
    exact ⟨busByte_zero_factorBlock .., busByte_one_factorBlock ..⟩

/-- Settles O3: quotient and remainder name the word, and a word named by no arm decodes to nothing. -/
theorem decodingAlgorithm : Obligations.DecodingAlgorithm := by
  refine fun cmd din => ⟨?_, ?_, ?_, ?_, ?_, ?_⟩
  · rintro ⟨hop, hn⟩
    exact eq_cmdWord (op := 1) (n := 0) hop hn ▸ decode_kexp_word din
  · rintro ⟨hop, hn⟩
    exact eq_cmdWord (op := 2) (n := 0) hop hn ▸ decode_enc_word din
  · rintro ⟨hop, hn⟩
    exact eq_cmdWord (op := 3) (n := 0) hop hn ▸ decode_dec_word din
  · rintro ⟨hop, hn⟩
    rw [← cmdN_toNat, BitVec.ofNat_toNat, BitVec.setWidth_eq]
    rw [← cmdN_toNat] at hn
    have hcmd : cmd = cmdWord 4 (cmdN cmd) := eq_cmdWord hop (cmdN_toNat cmd).symm
    rw [hcmd, cmdN_cmdWord]
    exact decode_rdrk_word din hn
  · rintro ⟨hop, hn⟩
    exact eq_cmdWord (op := 5) (n := 0) hop hn ▸ decode_gfmul_word din
  · intro hother hrdrk
    cases hd : decode cmd din with
    | error e => exact ⟨e, rfl⟩
    | ok i =>
      exfalso
      rcases decode_ok_cases hd with ⟨rfl, -⟩ | ⟨rfl, -⟩ | ⟨rfl, -⟩ | ⟨n, hn, rfl, -⟩ | ⟨rfl, -⟩
      case inr.inr.inr.inl => exact hrdrk ⟨cmdWord_div 4 n, (cmdWord_mod 4 n).symm ▸ hn⟩
      all_goals exact hother (by decide)

/-- Settles O5, by running the decoder on the eight words. -/
theorem decodeSampleWords : Obligations.DecodeSampleWords := by
  unfold Obligations.DecodeSampleWords
  decide

end Sys2Proof.Machine
end

section
/-! PROOFS. The protocol (30_encoding.md R65, R72, R73): which words are legal, which move each step carries out, and the
clock edges of an idle and of a busy block. -/

namespace Sys2Proof.Machine

/-! ### Legal words -/

/-- The 15 legal command words (30_encoding.md R64). -/
def legalWords : List (BitVec 8) :=
  [0x10, 0x20, 0x30, 0x40, 0x41, 0x42, 0x43, 0x44, 0x45, 0x46, 0x47, 0x48, 0x49, 0x4a, 0x50]

/-- A command decodes from exactly the legal words (30_encoding.md R65). -/
theorem exists_decode_ok_iff (cmd : BitVec 8) (din : BitVec 128) : (∃ i, decode cmd din = .ok i) ↔ cmd ∈ legalWords := by
  constructor
  · rintro ⟨i, hd⟩
    obtain ⟨hi, rfl, -⟩ := encodeOfDecode cmd din i hd
    exact encode_legal hi hi
  · intro hc
    simp only [legalWords, List.mem_cons, List.not_mem_nil, or_false] at hc
    rcases hc with rfl | rfl | rfl | rfl | rfl | rfl | rfl | rfl | rfl | rfl | rfl | rfl | rfl | rfl | rfl
    all_goals exact ⟨_, rfl⟩

theorem toOption_isNone_iff {ε α : Type} (x : Except ε α) : x.toOption.isNone = true ↔ ¬ ∃ a, x = .ok a := by
  cases x <;> simp [Except.toOption]

/-! ### The moves of a step -/

theorem step_quiet {s : State} (hh : s.host = []) : step s = toOutcome (clockEdge quietPins s) := by
  simp only [step, runHost, hh]

theorem step_edge {s : State} {p : Pins} {rest : List HostEvent} (hh : s.host = .edge p :: rest) :
    step s = toOutcome (clockEdge p { s with host := rest }) := by
  simp only [step, runHost, hh]

theorem step_command_idle {s : State} {cmd : BitVec 8} {din : BitVec 128} {rest : List HostEvent}
    (hh : s.host = .command cmd din :: rest) (hp : s.ph = .idle) : step s = runWord cmd din { s with host := rest } := by
  simp only [step, runHost, hh, hp, if_true]

theorem step_command_busy {s : State} {cmd : BitVec 8} {din : BitVec 128} {rest : List HostEvent}
    (hh : s.host = .command cmd din :: rest) (hp : s.ph ≠ .idle) :
    step s = toOutcome (clockEdge (presentPins cmd din) s) := by
  simp only [step, runHost, hh, hp, if_false]

theorem runWord_of_decode {cmd : BitVec 8} {din : BitVec 128} {i : Instr} (hd : decode cmd din = .ok i) (s : State) :
    runWord cmd din s = exec i s := by
  simp only [runWord, hd]

theorem runWord_of_illegal {cmd : BitVec 8} {din : BitVec 128} {e : DecodeError} (hd : decode cmd din = .error e)
    (s : State) : runWord cmd din s = .next (raiseFault .illegalCommand s) := by
  simp only [runWord, hd]

theorem decode_of_decodeTableWord {nbits w : Nat} {i : Instr} (h : decodeTableWord nbits w = some i) :
    decode (tableCmd (w % 2 ^ nbits)) (tableDin (w % 2 ^ nbits)) = .ok i := by
  unfold decodeTableWord at h
  split at h
  · cases hd : decode (tableCmd (w % 2 ^ nbits)) (tableDin (w % 2 ^ nbits)) with
    | error e => simp [hd, Except.toOption] at h
    | ok j => simpa [hd, Except.toOption] using h
  · cases h

/-! ### The clock edge -/

theorem cmdReady_false_iff (s : State) : cmdReady s = false ↔ s.ph ≠ .idle := by simp [cmdReady]

theorem clockEdge_accept {p : Pins} {s : State} (hr : p.rst = false) (hp : s.ph = .idle) (hv : p.cmdValid = true) :
    clockEdge p s = workEdge (accept p.cmd p.din s) := by
  simp [clockEdge, hr, hp, hv]

theorem clockEdge_idle {p : Pins} {s : State} (hr : p.rst = false) (hp : s.ph = .idle) (hv : p.cmdValid = false) :
    clockEdge p s = .ok { s with respValid := false } := by
  simp [clockEdge, hr, hp, hv]

/-- At an edge of a busy block the pins have no part (30_encoding.md R72, R73). -/
theorem clockEdge_busy {p : Pins} {s : State} (hr : p.rst = false) (hp : s.ph ≠ .idle) :
    clockEdge p s = if s.respValid then .ok (endResponse s) else workEdge s := by
  simp [clockEdge, hr, hp]

theorem clockEdge_work {p : Pins} {s : State} (hr : p.rst = false) (hp : s.ph ≠ .idle) (hv : s.respValid = false) :
    clockEdge p s = workEdge s := by
  rw [clockEdge_busy hr hp, hv]
  rfl

/-! ### The obligations on the protocol -/

/-- Settles O4: the illegal words are counted as those not among the legal 15, and an accepted one raises its fault. -/
theorem illegalWords : Obligations.IllegalWords := by
  refine ⟨exists_decode_ok_iff, fun din => ?_, fun _ => ⟨.reservedOp, rfl⟩, fun s cmd din rest e hh hp hd => ?_⟩
  · have hnone : ∀ w, (decode (BitVec.ofNat 8 w) din).toOption.isNone = decide (BitVec.ofNat 8 w ∉ legalWords) := by
      intro w
      rw [Bool.eq_iff_iff, toOption_isNone_iff, exists_decode_ok_iff, decide_eq_true_iff]
    simp only [hnone]
    decide +kernel
  · exact ⟨_, (step_command_idle hh hp).trans (runWord_of_illegal hd _), response_raiseFault _ _⟩

/-- Settles O10: a command begun has a PH of its own, and no working edge gives it up. -/
theorem acceptanceHandshake : Obligations.AcceptanceHandshake := by
  refine ⟨fun s t p hr hv hready h => ?_, fun s p hr hv hready => ?_⟩
  · rw [clockEdge_accept hr ((cmdReady_iff s).1 hready) hv] at h
    rw [cmdReady_false_iff, workEdge_ph h]
    exact beginWord_ph p.cmd p.din s
  · have hp := (cmdReady_iff s).1 hready
    exact ⟨_, clockEdge_idle hr hp hv, rfl, rfl, hp, rfl⟩

/-- Settles O7: an idle block runs the presented word, and a word that decodes is run as its command. -/
theorem stepRunsDecoded : Obligations.StepRunsDecoded :=
  fun _ _ _ _ _ hh hp hd => (step_command_idle hh hp).trans (runWord_of_decode hd _)

/-- Settles O8: the step's equation for each kind of move that is no accepted command. -/
theorem stepIsClockEdge : Obligations.StepIsClockEdge :=
  fun _ => ⟨step_quiet, fun _ _ => step_edge, fun _ _ _ => step_command_busy⟩

/-- Settles O9, as the step that runs what `withFetchWord` places. -/
theorem fetchWordRuns : Obligations.FetchWordRuns :=
  fun s nbits w _ h => stepRunsDecoded (s.withFetchWord nbits w) _ _ _ _ rfl rfl (decode_of_decodeTableWord h)

/-- Settles O11: the pins have no part in an edge of a busy block. -/
theorem busyIgnoresPins : Obligations.BusyIgnoresPins := by
  intro s p hr hbusy
  have hp := (cmdReady_false_iff s).1 hbusy
  rw [clockEdge_busy hr hp, clockEdge_busy (p := quietPins) rfl hp]

/-- Settles O12: the edge of a busy block with a response ends the response. -/
theorem responseLastsOneCycle : Obligations.ResponseLastsOneCycle := by
  intro s p hv hbusy hr
  have he : clockEdge p s = .ok (endResponse s) := by
    rw [clockEdge_busy hr ((cmdReady_false_iff s).1 hbusy), if_pos hv]
  exact ⟨_, he, rfl, rfl, rfl, rfl⟩

end Sys2Proof.Machine
end

section
/-! PROOFS. The block at its pins refines the command-level view (30_encoding.md R72 to R74, log 5): the work of an edge
does not see the model's own fields, a command begun and finished is the command's meaning, and every edge before the
last leaves what the command will answer as it was. -/

namespace Sys2Proof.Machine

/-! ### The fields of the model's own -/

/-- A state with the host's moves, the edges left and the draws of another: the fields the spec does not give. -/
def State.withOwn (s o : State) : State := { s with host := o.host, latLeft := o.latLeft, draws := o.draws }

theorem sameArch_withOwn (s o : State) : SameArch s (s.withOwn o) := ⟨rfl, rfl, rfl, rfl, rfl, rfl, rfl, rfl, rfl⟩

theorem withOwn_ph (s o : State) : (s.withOwn o).ph = s.ph := rfl

theorem produceWord_withOwn (s o : State) : produceWord (s.withOwn o) = produceWord s := rfl

theorem transformRound_withOwn (f : Nat → RoundWords → Matrix → Matrix) (s o : State) :
    transformRound f (s.withOwn o) = transformRound f s := rfl

theorem atLastStep_withOwn (s o : State) : atLastStep (s.withOwn o) = atLastStep s := rfl

theorem microStep_withOwn (s o : State) : microStep (s.withOwn o) = (microStep s).map (·.withOwn o) := by
  simp only [microStep, withOwn_ph, produceWord_withOwn, transformRound_withOwn]
  split
  · cases produceWord s <;> rfl
  · cases transformRound encRound s <;> rfl
  · cases transformRound decRound s <;> rfl
  all_goals rfl

theorem lastStep_withOwn (s o : State) : lastStep (s.withOwn o) = (lastStep s).map (·.withOwn o) := by
  simp only [lastStep, withOwn_ph, produceWord_withOwn, transformRound_withOwn]
  split
  · rfl
  · cases produceWord s <;> rfl
  · cases transformRound encRound s <;> rfl
  · cases transformRound decRound s <;> rfl
  · next n _ =>
    show (readRound s.rk n.toNat >>= _) = _
    cases readRound s.rk n.toNat <;> rfl
  all_goals rfl

theorem advance_withOwn (k : Nat) (s o : State) : advance k (s.withOwn o) = (advance k s).map (·.withOwn o) := by
  induction k generalizing s with
  | zero => rfl
  | succ k ih =>
    simp only [advance, atLastStep_withOwn, microStep_withOwn]
    split
    · rfl
    · cases microStep s with
      | error e => rfl
      | ok u => exact ih u

theorem finish_withOwn (s o : State) : finish (s.withOwn o) = (finish s).map (·.withOwn o) := by
  simp only [finish, advance_withOwn]
  cases advance 40 s with
  | error e => rfl
  | ok u => exact lastStep_withOwn u o

theorem commandFault_withOwn (i : Instr) (s o : State) : commandFault i (s.withOwn o) = commandFault i s := by
  cases i <;> rfl

theorem beginWord_withOwn (cmd : BitVec 8) (din : BitVec 128) (s o : State) :
    beginWord cmd din (s.withOwn o) = (beginWord cmd din s).withOwn o := by
  simp only [beginWord]
  split
  · next i _ =>
    simp only [begin, commandFault_withOwn]
    split
    · rfl
    · cases i <;> rfl
  · rfl

/-! ### A command begun and finished -/

/-- In a sound state that has a key, RK holds a schedule (10_state.md R21). -/
theorem Sound.schedule {s : State} (hs : Sound s) (hk : s.kv = true) : ∃ rk, s.rk = scheduleMemory rk := by
  obtain ⟨-, hkey, -, -⟩ := hs
  obtain ⟨key, hrk⟩ := hkey hk
  exact ⟨_, hrk⟩

/-- The schedule a sound state with a key is read to hold is all that its RK holds. -/
theorem Sound.eq_scheduleMemory {s : State} {rk : Schedule} (hs : Sound s) (hk : s.kv = true)
    (hr : readSchedule s.rk = .ok rk) : s.rk = scheduleMemory rk := by
  obtain ⟨rk', hrk⟩ := hs.schedule hk
  rw [hrk, readSchedule_scheduleMemory] at hr
  rw [hrk, Except.ok.inj hr]

/-- At its acceptance a KEXP is in progress, the key's four words in RK (41_key_scheduler.md R96, R99). -/
theorem kexpRunning_begin (key : Block) (s : State) : KexpRunning key (begin (.kexp key) s) :=
  ⟨rfl, Nat.le_refl 4, (by decide : 4 ≤ 43), keyMemory_eq key⟩

theorem advance_add (j k : Nat) (s : State) : advance (j + k) s = advance j s >>= advance k := by
  induction j generalizing s with
  | zero => rw [Nat.zero_add]; rfl
  | succ j ih =>
    rw [Nat.succ_add]
    by_cases hl : atLastStep s = true
    · rw [advance_of_atLastStep hl, advance_of_atLastStep hl]
      exact (advance_of_atLastStep hl k).symm
    · simp only [advance, if_neg hl]
      cases microStep s with
      | error e => rfl
      | ok u => exact ih u

/-- 40 steps bring a command in progress to its last one (41_key_scheduler.md R99; 42_round_engine.md R119, R120). -/
theorem Sound.advance_to_lastStep {s : State} (hs : Sound s) (hv : s.respValid = false) :
    ∃ u, advance 40 s = .ok u ∧ atLastStep u = true := by
  obtain ⟨-, -, hphase, -⟩ := id hs
  cases hp : s.ph with
  | kexp =>
    obtain ⟨-, key, hr⟩ := hs.kexpRunning hp hv
    obtain ⟨u, hu, hr', hw, -⟩ := hr.advance 40
    have hwi : u.wi = 43 := BitVec.eq_of_toNat_eq (by have := hr.low; simp; omega)
    exact ⟨u, hu, by simp [atLastStep, hr'.ph, hwi]⟩
  | enc =>
    obtain ⟨hk, hrnd⟩ := (phaseInv_transform_iff (.inl hp)).1 hphase
    obtain ⟨rk, hrk⟩ := hs.schedule hk
    obtain ⟨u, hu, -, hw, -⟩ := TransformRunning.advance_enc 40 ⟨hrk, hrnd⟩ hp
    have hr : u.rnd = 10 := BitVec.eq_of_toNat_eq (by simp; omega)
    exact ⟨u, hu, by simp [atLastStep, advance_ph hu, hp, hr]⟩
  | dec =>
    obtain ⟨hk, hrnd⟩ := (phaseInv_transform_iff (.inr hp)).1 hphase
    obtain ⟨rk, hrk⟩ := hs.schedule hk
    obtain ⟨u, hu, -, hw, -⟩ := TransformRunning.advance_dec 40 ⟨hrk, hrnd⟩ hp
    have hr : u.rnd = 0 := BitVec.eq_of_toNat_eq (by simp; omega)
    exact ⟨u, hu, by simp [atLastStep, advance_ph hu, hp, hr]⟩
  | _ =>
    have hl : atLastStep s = true := by simp [atLastStep, hp]
    exact ⟨s, advance_of_atLastStep hl 40, hl⟩

/-- The work done before the last edge does not change how a command finishes. -/
theorem Sound.finish_advance {s : State} (hs : Sound s) (hv : s.respValid = false) (k : Nat) :
    ∃ u, advance k s = .ok u ∧ finish u = finish s := by
  obtain ⟨v, hv40, hl⟩ := hs.advance_to_lastStep hv
  have hsum : advance (k + 40) s = .ok v := by
    rw [Nat.add_comm, advance_add, hv40]
    exact advance_of_atLastStep hl k
  rw [advance_add] at hsum
  obtain ⟨u, hu, hu40⟩ := bind_ok hsum
  exact ⟨u, hu, by rw [finish, finish, hu40, hv40]⟩

/-- A command accepted and finished at once is the command's meaning (30_encoding.md R74). -/
theorem Sound.finish_begin {s t : State} {i : Instr} (hs : Sound s) (h : exec i s = .next t) :
    finish (begin i s) = .ok t := by
  cases hf : commandFault i s with
  | some f =>
    rw [exec_of_fault hf] at h
    obtain rfl := Host.Outcome.next.inj h
    rw [begin_of_fault hf, finish_err rfl]
    rfl
  | none =>
    rcases exec_next_cases h with ⟨f, hf', -⟩ | ⟨key, rfl, rfl⟩ | ⟨b, rk, rfl, hk, hr, rfl⟩ | ⟨b, rk, rfl, hk, hr, rfl⟩ |
      ⟨n, k, rfl, hk, hn, hr, rfl⟩ | ⟨a, b, rfl, rfl⟩
    · simp [hf] at hf'
    · exact (kexpRunning_begin key s).finish
    · have hrk := hs.eq_scheduleMemory hk hr
      simp only [begin, hf]
      exact TransformRunning.finish_enc (b := b) ⟨hrk, Nat.zero_le 10⟩ rfl (encFrom_load rk b)
    · have hrk := hs.eq_scheduleMemory hk hr
      simp only [begin, hf]
      exact TransformRunning.finish_dec (b := b) ⟨hrk, Nat.le_refl 10⟩ rfl (decFrom_load rk b)
    · simp only [begin, hf]
      rw [finish_of_atLastStep rfl]
      simp only [lastStep, hr]
      rfl
    · simp only [begin, hf]
      exact finish_gfmul rfl

/-- An accepted word, legal or not, finished at once answers what running the word answers. -/
theorem Sound.finish_beginWord {s t : State} {cmd : BitVec 8} {din : BitVec 128} (hs : Sound s)
    (h : runWord cmd din s = .next t) : finish (beginWord cmd din s) = .ok t := by
  rcases runWord_cases h with ⟨i, hd, he⟩ | ⟨e, hd, rfl⟩
  · simp only [beginWord, hd]
    exact hs.finish_begin he
  · simp only [beginWord, hd]
    exact finish_err rfl

/-! ### A command in progress, edge by edge -/

/-- A command in progress that will answer `t`, its registers and memories at least (30_encoding.md R73). -/
structure Working (t s : State) : Prop where
  sound : Sound s
  busy : s.ph ≠ .idle
  silent : s.respValid = false
  answers : ∃ u, finish s = .ok u ∧ SameArch t u

theorem SameArch.withOwn {s t : State} (h : SameArch s t) (o : State) : SameArch s (t.withOwn o) := h

theorem Working.withOwn {t s : State} (h : Working t s) (o : State) : Working t (s.withOwn o) := by
  obtain ⟨hs, hp, hv, u, hu, ha⟩ := h
  exact ⟨hs, hp, hv, u.withOwn o, by rw [finish_withOwn, hu]; rfl, ha.withOwn o⟩

/-- Advancing leaves the model's own fields as they were. -/
theorem advance_own {k : Nat} {s t : State} (h : advance k s = .ok t) : t = t.withOwn s := by
  have hown : advance k s = (advance k s).map (·.withOwn s) := advance_withOwn k s s
  rw [h] at hown
  exact Except.ok.inj hown

/-- Every edge but the last of a command in progress leaves it in progress, one edge nearer to its response. -/
theorem Working.workEdge_early {t s : State} {l : Nat} (h : Working t s) (hl : s.latLeft = l + 1) :
    ∃ u, workEdge s = .ok u ∧ Working t u ∧ u.latLeft = l ∧ u.host = s.host := by
  obtain ⟨u, hu, hf⟩ := h.sound.finish_advance h.silent (Config.stepsInCycle s.draws)
  obtain ⟨hs, hv⟩ := advance_sound hu h.sound h.silent
  have hw : Working t u := ⟨hs, advance_ph hu ▸ h.busy, hv, hf ▸ h.answers⟩
  refine ⟨u.withOwn { s with latLeft := l, draws := s.draws + 1 }, ?_, hw.withOwn _, rfl, rfl⟩
  rw [workEdge, if_neg (by omega), hu, hl]
  conv_lhs => rw [advance_own hu]
  rfl

/-- The last edge of a command in progress opens its response (30_encoding.md R73). -/
theorem Working.workEdge_last {t s : State} (h : Working t s) (hl : s.latLeft = 0) :
    ∃ u, workEdge s = .ok u ∧ SameArch t u := by
  rw [workEdge, if_pos hl]
  exact h.answers

/-- A move of the host that is no reset and no command-level move: a clock edge with `rst` = 0. -/
def IsRunningEdge (e : HostEvent) : Prop := ∃ p, e = .edge p ∧ p.rst = false

/-- A step of a command in progress is its next edge, whatever the pins of a running edge carry (R72). -/
theorem Working.step {t s : State} (h : Working t s) (hh : ∀ e ∈ s.host, IsRunningEdge e) :
    step s = toOutcome (workEdge { s with host := s.host.tail }) := by
  have hedge : ∀ p m, p.rst = false → clockEdge p { s with host := m } = workEdge { s with host := m } :=
    fun _ m hr => clockEdge_work (s := { s with host := m }) hr h.busy h.silent
  cases hm : s.host with
  | nil =>
    have hs : s = { s with host := [] } := by rw [← hm]
    rw [step_quiet hm, hs]
    exact congrArg toOutcome (hedge quietPins [] rfl)
  | cons e rest =>
    obtain ⟨p, rfl, hr⟩ := hh e (by rw [hm]; exact List.mem_cons_self)
    rw [step_edge hm]
    exact congrArg toOutcome (hedge p rest hr)

/-- A command in progress, run edge by edge from its next edge on: no response and busy until the last edge, which gives
the response. -/
theorem Working.run {t : State} (l : Nat) {s₀ s : State} (h : Working t s) (hl : s.latLeft = l)
    (hh : ∀ e ∈ s.host, IsRunningEdge e) (h₀ : Machine.step s₀ = toOutcome (workEdge s)) :
    (∃ u, Host.Core.run Sys2Proof.core (l + 1) s₀ = .next u ∧ SameArch t u) ∧
    ∀ n < l, ∃ v, Host.Core.run Sys2Proof.core (n + 1) s₀ = .next v ∧ v.respValid = false ∧ v.ph ≠ .idle := by
  induction l generalizing s₀ s with
  | zero =>
    obtain ⟨u, hu, ha⟩ := h.workEdge_last hl
    rw [hu] at h₀
    exact ⟨⟨u, run_succ_of_next 0 h₀, ha⟩, fun n hn => absurd hn n.not_lt_zero⟩
  | succ l ih =>
    obtain ⟨u, hu, hw, hl', hhost⟩ := h.workEdge_early hl
    rw [hu] at h₀
    rw [← hhost] at hh
    have hh' : ∀ e ∈ u.host.tail, IsRunningEdge e := fun e he => hh e (List.mem_of_mem_tail he)
    obtain ⟨hlast, hearly⟩ := ih (hw.withOwn { u with host := u.host.tail }) hl' hh' (hw.step hh)
    rw [run_succ_of_next _ h₀]
    refine ⟨hlast, fun n hn => ?_⟩
    rw [run_succ_of_next n h₀]
    cases n with
    | zero => exact ⟨u, rfl, hw.silent, hw.busy⟩
    | succ n => exact hearly n (by omega)

theorem beginWord_respValid (cmd : BitVec 8) (din : BitVec 128) (s : State) :
    (beginWord cmd din s).respValid = s.respValid := by
  unfold beginWord
  split
  · next i _ =>
    unfold begin
    split
    · rfl
    · cases i <;> rfl
  · rfl

/-- In a cycle without a response, acceptance begins the command and sets the model's own fields. -/
theorem accept_eq_withOwn {s : State} (hv : s.respValid = false) (cmd : BitVec 8) (din : BitVec 128) :
    accept cmd din s = (beginWord cmd din s).withOwn (accept cmd din s) := by
  have hb := beginWord_respValid cmd din s
  rw [hv] at hb
  simp only [accept, State.withOwn, hb]

/-- An accepted command is in progress towards what the command-level view answers, whatever the host does next. -/
theorem working_accept {s t : State} {cmd : BitVec 8} {din : BitVec 128} (hs : Sound s) (hv : s.respValid = false)
    (h : runWord cmd din s = .next t) (o : State) : Working t (accept cmd din (s.withOwn o)) := by
  have ha : accept cmd din (s.withOwn o) = (beginWord cmd din s).withOwn (accept cmd din (s.withOwn o)) := by
    conv_lhs => rw [accept_eq_withOwn (s := s.withOwn o) hv, beginWord_withOwn]
    rfl
  refine ⟨accept_sound cmd din hs hv, beginWord_ph cmd din _, rfl, t.withOwn (accept cmd din (s.withOwn o)), ?_,
    sameArch_withOwn _ _⟩
  rw [ha, finish_withOwn, hs.finish_beginWord h]
  rfl

theorem accept_host (cmd : BitVec 8) (din : BitVec 128) (s : State) : (accept cmd din s).host = s.host := by
  have h := congrArg State.host (beginWord_withOwn cmd din s s)
  exact h

/-- Acceptance draws the latency of the command it begins (30_encoding.md R73, log 5). -/
theorem accept_latLeft (cmd : BitVec 8) (din : BitVec 128) (s o : State) :
    (accept cmd din (s.withOwn o)).latLeft + 1 = Config.LAT (latencyOf (beginWord cmd din s).ph) o.draws := by
  have hph : (beginWord cmd din (s.withOwn o)).ph = (beginWord cmd din s).ph := by
    rw [beginWord_withOwn, withOwn_ph]
  rw [← hph]
  rfl

/-- Settles O54: the accepted command is in progress towards what the command-level step answers, and `Working.run` runs
it from the edge of acceptance, the first of its LAT edges. -/
theorem clockRefinesCommand : Obligations.ClockRefinesCommand := by
  intro s cmd din t later hs hp hlater h
  obtain ⟨-, -, hphase, -⟩ := id hs
  have hv : s.respValid = false := (phaseInv_idle_iff hp).1 hphase
  rw [step_command_idle (s := { s with host := [.command cmd din] }) rfl hp] at h
  have hw := working_accept (s := { s with host := [] }) hs hv h { s with host := later.map .edge }
  have hhost : ∀ e ∈ (accept cmd din { s with host := later.map .edge }).host, IsRunningEdge e := by
    rw [accept_host]
    exact List.forall_mem_map.2 fun p hmem => ⟨p, rfl, hlater p hmem⟩
  have h₀ : step { s with host := .edge (presentPins cmd din) :: later.map .edge } =
      toOutcome (workEdge (accept cmd din { s with host := later.map .edge })) :=
    congrArg toOutcome (clockEdge_accept rfl hp rfl)
  obtain ⟨hlast, hearly⟩ := hw.run _ rfl hhost h₀
  rw [← accept_latLeft cmd din s { s with host := later.map .edge }]
  refine ⟨hlast, fun n hn => ?_⟩
  cases n with
  | zero => exact ⟨_, rfl, hv, by simp [cmdReady_iff, hp]⟩
  | succ n =>
    obtain ⟨v, hrun, hsilent, hbusy⟩ := hearly n (Nat.lt_of_succ_lt_succ hn)
    have hready : cmdReady v = false := (cmdReady_false_iff v).2 hbusy
    exact ⟨v, hrun, hsilent, by simp [hready]⟩

end Sys2Proof.Machine
end

section
/-! PROOFS. The Galois-Field Arithmetic unit (40_gf_arithmetic.md): doubling and its closed form, the laws of the field,
the product as one of polynomials, and the command GFMUL. -/

namespace Sys2Proof.Machine

/-! ### Doubling (40_gf_arithmetic.md R82, R83) -/

/-- Under the exclusive or of two conditions stands the XOR of what stands under each. -/
theorem if_xor (x y : Bool) (v : Byte) :
    (if (x ^^ y) = true then v else 0) = (if x = true then v else 0) ^^^ (if y = true then v else 0) := by
  simpa using xor_ifs x y 0 0 v

/-- Doubling in closed form: both sides distribute over XOR, so the eight one-bit bytes decide it. -/
theorem xtime_eq_shift (a : Byte) : xtime a = (a <<< 1) ^^^ (if a.getLsbD 7 then 0x1b else 0x00) := by
  induction a using byte_xor_induction with
  | bit i hi => revert i; decide +kernel
  | xor x y hx hy =>
    rw [xtime_xor, hx, hy, BitVec.shiftLeft_xor_distrib, BitVec.getLsbD_xor, if_xor]
    ac_rfl

/-- Settles O36: the closed form of doubling, and three entries of row 2 of GFTAB. -/
theorem doublingClosedForm : Obligations.DoublingClosedForm :=
  ⟨fun a => ⟨rfl, xtime_eq_shift a⟩, by decide, by decide, by decide⟩

/-- Settles O33: the recursion of `rcon` from its second value on, and its first ten values. -/
theorem roundConstants : Obligations.RoundConstants := by
  refine ⟨rfl, fun i hlow _ => ?_, by decide⟩
  obtain ⟨j, rfl⟩ := Nat.exists_eq_add_of_le' hlow
  rfl

/-! ### The laws of the field (40_gf_arithmetic.md R84) -/

theorem gfmul_xtime_left (a b : Byte) : gfmul (xtime a) b = xtime (gfmul a b) := gfmul_assoc 2 a b

@[simp] theorem gfmul_zero_right (a : Byte) : gfmul a 0 = 0 := by
  rw [gfmul_comm, gfmul_zero_left]

/-- There are no zero divisors: `b = (a⁻¹ * a) * b = a⁻¹ * 0` when `a` is not 0. -/
theorem gfmul_eq_zero {a b : Byte} (h : gfmul a b = 0) : a = 0 ∨ b = 0 := by
  by_cases ha : a = 0
  · exact .inl ha
  · right
    calc b = gfmul (gfmul (tableInverse a) a) b := by rw [gfmul_comm _ a, gfmul_tableInverse a ha, gfmul_one_left]
      _ = 0 := by rw [gfmul_assoc, h, gfmul_zero_right]

/-- A non-zero byte has exactly one inverse. -/
theorem existsUnique_gfmul_eq_one {a : Byte} (ha : a ≠ 0) : ∃! b, gfmul a b = 1 :=
  ⟨tableInverse a, gfmul_tableInverse a ha, fun _ => eq_tableInverse⟩

/-- The small multipliers: each is a XOR of doublings of 1, and the product passes both on to its other factor. -/
theorem gfmul_small_multipliers (a : Byte) :
    gfmul 0x03 a = xtime a ^^^ a ∧ gfmul 0x09 a = xtime (xtime (xtime a)) ^^^ a ∧
      gfmul 0x0b a = xtime (xtime (xtime a)) ^^^ xtime a ^^^ a ∧
      gfmul 0x0d a = xtime (xtime (xtime a)) ^^^ xtime (xtime a) ^^^ a ∧
      gfmul 0x0e a = xtime (xtime (xtime a)) ^^^ xtime (xtime a) ^^^ xtime a := by
  have h3 : (0x03 : Byte) = xtime 1 ^^^ 1 := by decide +kernel
  have h9 : (0x09 : Byte) = xtime (xtime (xtime 1)) ^^^ 1 := by decide +kernel
  have h11 : (0x0b : Byte) = xtime (xtime (xtime 1)) ^^^ xtime 1 ^^^ 1 := by decide +kernel
  have h13 : (0x0d : Byte) = xtime (xtime (xtime 1)) ^^^ xtime (xtime 1) ^^^ 1 := by decide +kernel
  have h14 : (0x0e : Byte) = xtime (xtime (xtime 1)) ^^^ xtime (xtime 1) ^^^ xtime 1 := by decide +kernel
  rw [h3, h9, h11, h13, h14]
  simp only [gfmul_xor_left, gfmul_xtime_left, gfmul_one_left, and_self]

/-- Settles O35: a product without inverse, the laws of XOR, and the small multipliers as sums of doublings. -/
theorem fieldLaws : Obligations.FieldLaws :=
  ⟨gfmul_comm, gfmul_assoc, gfmul_xor_right, gfmul_zero_right, gfmul_one_right, fun _ _ => gfmul_eq_zero,
    fun _ => existsUnique_gfmul_eq_one, by decide,
    fun a b c => ⟨BitVec.xor_comm a b, BitVec.xor_assoc a b c, BitVec.xor_zero, BitVec.xor_self⟩,
    gfmul_small_multipliers⟩

/-! ### Bytes as polynomials over GF(2) (40_gf_arithmetic.md R80, R81) -/

section polynomials
open Polynomial

/-- The polynomial a byte stands for: bit `i` is the coefficient of `X ^ i` (40_gf_arithmetic.md R80). -/
noncomputable def bytePoly (a : Byte) : (ZMod 2)[X] :=
  ∑ i ∈ Finset.range 8, if a.getLsbD i then X ^ i else 0

/-- The AES reduction polynomial (40_gf_arithmetic.md R81). -/
noncomputable def aesPoly : (ZMod 2)[X] := X ^ 8 + X ^ 4 + X ^ 3 + X + 1

theorem bytePoly_xor (a b : Byte) : bytePoly (a ^^^ b) = bytePoly a + bytePoly b := by
  simp only [bytePoly, ← Finset.sum_add_distrib]
  refine Finset.sum_congr rfl fun i _ => ?_
  rw [BitVec.getLsbD_xor]
  cases a.getLsbD i <;> cases b.getLsbD i <;> simp [CharTwo.add_self_eq_zero]

/-- A one-bit byte stands for a power of `X`. -/
theorem bytePoly_bit {i : Nat} (hi : i < 8) : bytePoly (1#8 <<< i) = X ^ i := by
  have hbit : ∀ j < 8, (1#8 <<< i).getLsbD j = decide (j = i) := by revert i; decide
  rw [bytePoly, Finset.sum_congr rfl fun j hj => by rw [hbit j (Finset.mem_range.1 hj)]]
  simp [hi]

/-- The element of `GF(2)[X] / aesPoly` that a byte stands for. -/
noncomputable def byteClass (a : Byte) : AdjoinRoot aesPoly := AdjoinRoot.mk aesPoly (bytePoly a)

theorem byteClass_xor (a b : Byte) : byteClass (a ^^^ b) = byteClass a + byteClass b := by
  rw [byteClass, bytePoly_xor, map_add]
  rfl

theorem byteClass_bit {i : Nat} (hi : i < 8) : byteClass (1#8 <<< i) = AdjoinRoot.root aesPoly ^ i := by
  rw [byteClass, bytePoly_bit hi, map_pow, AdjoinRoot.mk_X]

theorem byteClass_one : byteClass 1 = 1 := byteClass_bit (i := 0) (by decide)

/-- Below its leading term the AES polynomial is the byte 0x1b. -/
theorem aesPoly_eq : aesPoly = X ^ 8 + bytePoly 0x1b := by
  have hbyte : bytePoly 0x1b = 1 + X + X ^ 3 + X ^ 4 := by simp [bytePoly, Finset.sum_range_succ]
  rw [aesPoly, hbyte]
  ring

/-- Modulo the AES polynomial the byte 0x1b is `X ^ 8`, since addition is its own inverse. -/
theorem byteClass_reduced : byteClass 0x1b = AdjoinRoot.root aesPoly ^ 8 := by
  have hpoly : bytePoly 0x1b = X ^ 8 + aesPoly := by
    rw [aesPoly_eq, ← add_assoc, CharTwo.add_self_eq_zero, zero_add]
  rw [byteClass, hpoly, map_add, map_pow, AdjoinRoot.mk_self, AdjoinRoot.mk_X, add_zero]

/-- Doubling a byte multiplies its class by `X`. -/
theorem byteClass_xtime (a : Byte) : byteClass (xtime a) = AdjoinRoot.root aesPoly * byteClass a := by
  induction a using byte_xor_induction with
  | bit i hi =>
    rw [byteClass_bit hi, ← pow_succ']
    by_cases hlast : i = 7
    · subst hlast
      exact byteClass_reduced
    · have hshift : ∀ i < 7, xtime (1#8 <<< i) = 1#8 <<< (i + 1) := by decide +kernel
      rw [hshift i (by omega), byteClass_bit (by omega)]
  | xor x y hx hy => rw [xtime_xor, byteClass_xor, byteClass_xor, hx, hy, mul_add]

/-- `gfmul` is the product in `GF(2)[X] / aesPoly`, by doubling and XOR in its second factor. -/
theorem byteClass_gfmul (a b : Byte) : byteClass (gfmul a b) = byteClass a * byteClass b := by
  induction b using byte_xtime_induction with
  | one => rw [gfmul_one_right, byteClass_one, mul_one]
  | double x hx => rw [gfmul_xtime, byteClass_xtime, hx, byteClass_xtime, mul_left_comm]
  | xor x y hx hy => rw [gfmul_xor_right, byteClass_xor, hx, hy, byteClass_xor, mul_add]

/-- The linear address of an entry of GFTAB (20_memory.md R40). -/
theorem append_eq_ofNat (a b : Byte) : a ++ b = BitVec.ofNat 16 (256 * a.toNat + b.toNat) := by
  apply BitVec.eq_of_toNat_eq
  rw [BitVec.toNat_append, ← Nat.shiftLeft_add_eq_or_of_lt b.isLt, Nat.shiftLeft_eq, BitVec.toNat_ofNat]
  omega

/-- Settles O34: `gfmul` is the look-up at its linear address, and equal classes differ by a multiple of the AES
polynomial. -/
theorem gfmulIsPolynomialProduct : Obligations.GfmulIsPolynomialProduct := by
  refine ⟨fun a b => ⟨congrArg GFTAB (append_eq_ofNat a b), gfmul_eq a b⟩, fun a b => ?_⟩
  have hclass : AdjoinRoot.mk aesPoly (bytePoly a * bytePoly b) = AdjoinRoot.mk aesPoly (bytePoly (gfmul a b)) := by
    rw [map_mul]
    exact (byteClass_gfmul a b).symm
  obtain ⟨q, hq⟩ := AdjoinRoot.mk_eq_mk.1 hclass
  rw [mul_comm aesPoly] at hq
  exact ⟨q, sub_eq_iff_eq_add.1 hq⟩

end polynomials

/-! ### The command GFMUL (40_gf_arithmetic.md R86) -/

theorem shiftLeft_add_eq_cmdWord (op n : BitVec 4) : (op.setWidth 8 <<< 4) + n.setWidth 8 = cmdWord op n := by
  revert op n
  decide

/-- A command other than RDRK has no `n` but 0 (30_encoding.md R65). -/
theorem decode_nonzeroN {op n : BitVec 4} (hop : op = 1 ∨ op = 2 ∨ op = 3 ∨ op = 5) (hn : n ≠ 0) (din : BitVec 128) :
    decode (cmdWord op n) din = .error .nonzeroN := by
  rcases hop with rfl | rfl | rfl | rfl <;> simp [decode, illegalWord, show ¬ n = 0#4 from hn]

@[simp] theorem productBlock_get (p : Byte) (k : Fin 16) :
    (productBlock p).get k = if k.val = 0 then p else 0 := get_ofFn _ _

/-- Settles O20: the decoder at the words `0x5n`, and the response that `exec` gives from every state. -/
theorem gfmulCommand : Obligations.GfmulCommand := by
  have hdecode : ∀ din, decode 0x50 din = .ok (.gfmul (busByte din 0) (busByte din 1)) := decode_gfmul_word
  refine ⟨hdecode, fun n din hn => ?_, fun din din' h0 h1 => ?_, fun a b s => ?_,
    fun a => ⟨gfmul_zero_left a, gfmul_zero_right a, gfmul_one_left a⟩, by decide +kernel, fun s => ?_⟩
  · exact shiftLeft_add_eq_cmdWord 5 n ▸ decode_nonzeroN (by decide) hn din
  · rw [hdecode, hdecode, h0, h1]
  · refine ⟨_, productBlock (gfmul a b), exec_gfmul a b s, response_respond .., productBlock_get _ 0, fun k hk => ?_,
      rfl, rfl, rfl, rfl, rfl⟩
    exact (productBlock_get _ k).trans (if_neg (Fin.val_ne_of_ne hk))
  · have hproduct : productBlock (gfmul 0x57 0x83) = blockOfBus 0xc1000000000000000000000000000000 := by decide +kernel
    refine ⟨_, exec_gfmul _ _ s, ?_⟩
    rw [response_respond, hproduct]
    rfl

end Sys2Proof.Machine
end

section
/-! PROOFS. The Key Scheduler (41_key_scheduler.md): the sub-operations on words, the schedule as the recurrence gives
it, the bytes of a round key, what the commands KEXP and RDRK answer, and the steps of the sequencer. -/

namespace Sys2Proof.Machine

/-! ### Sub-operations (41_key_scheduler.md R91 to R94) -/

/-- Settles O29, byte by byte; in the 32-bit packing by `wordPack_rotWord`. -/
theorem rotWordRule : Obligations.RotWordRule :=
  ⟨fun t => ⟨rotWord_get t 0, rotWord_get t 1, rotWord_get t 2, rotWord_get t 3⟩, wordPack_rotWord, by decide⟩

/-- AddRcon as the XOR with the word `(rcon(j), 00, 00, 00)` (41_key_scheduler.md R93). -/
theorem addRcon_eq_xor (t : Word) (j : Nat) : addRcon t j = Word.xor t ⟨#[rcon j, 0, 0, 0], rfl⟩ := by
  refine vector_ext fun k => ?_
  rw [addRcon_get, xor_get]
  match k with
  | 0 => rfl
  | 1 | 2 | 3 => exact BitVec.xor_zero.symm

/-- Settles O30: the bytes by `subWord_get` and `addRcon_get`, the examples by running the two sub-operations. -/
theorem subWordAndAddRcon : Obligations.SubWordAndAddRcon := by
  refine ⟨subWord_get, by decide, fun t j => ⟨addRcon_get t j 0, fun k hk => ?_⟩, addRcon_eq_xor, by decide⟩
  rw [addRcon_get, if_neg hk]

theorem temp_of_mod_eq_zero {i : Nat} (h : i % 4 = 0) (t : Word) : temp i t = addRcon (subWord (rotWord t)) (i / 4) :=
  if_pos h

/-- The second arm of `temp` is dead: NK is 4, and a remainder by 4 is not 4 (41_key_scheduler.md R97). -/
theorem mod_NK_ne_four (i : Nat) : i % Config.NK ≠ 4 :=
  Nat.ne_of_lt (Nat.mod_lt i (by decide : 0 < Config.NK))

theorem temp_of_mod_ne_zero {i : Nat} (h : i % 4 ≠ 0) (t : Word) : temp i t = t := by
  rw [temp, if_neg h, if_neg (mod_NK_ne_four i)]

/-! ### The schedule (41_key_scheduler.md R95, R96) -/

/-- The loop never rewrites a word: entry `i` stays what was made from the `i` words before it. -/
theorem scheduleWords_getElem (key : Block) {m i : Nat} (h : i < m) :
    (scheduleWords key m)[i]'(by rwa [scheduleWords_length]) = scheduleWord key i (scheduleWords key i) := by
  induction m with
  | zero => omega
  | succ m ih =>
    have hl := scheduleWords_length key m
    by_cases hi : i < m
    · simp only [scheduleWords, List.getElem_append_left (hl.symm ▸ hi), ih hi]
    · obtain rfl : i = m := by omega
      simp only [scheduleWords, List.getElem_concat_length hl.symm]

theorem expand_getElem (key : Block) {i : Nat} (h : i < 44) :
    (expand key)[i] = scheduleWord key i (scheduleWords key i) := by
  rw [← scheduleWords_getElem key h]
  unfold expand
  rw [Vector.getElem_mk, List.getElem_toArray]

/-- Words 0 to 3 are the key (41_key_scheduler.md R96). -/
theorem expand_get_of_lt (key : Block) (i : Fin 4) : (expand key).get ⟨i.val, by omega⟩ = keyWord key i :=
  (expand_getElem key (by omega)).trans (dif_pos i.isLt)

/-- Every later word is the word four earlier XOR the transformed previous word (41_key_scheduler.md R95). -/
theorem expand_recurrence (key : Block) {i : Nat} (h4 : 4 ≤ i) (h44 : i < 44) :
    (expand key)[i] = Word.xor (expand key)[i - 4] (temp i (expand key)[i - 1]) := by
  have earlier {j : Nat} (hj : j < i) :
      (expand key)[j] = (scheduleWords key i)[j]'(by rwa [scheduleWords_length]) := by
    rw [scheduleWords_getElem key hj, expand_getElem key (by omega)]
  rw [expand_getElem key h44, scheduleWord_of_le h4, earlier (by omega), earlier (by omega), nextWord]

/-! ### The bytes of a round key (41_key_scheduler.md R100) -/

/-- Byte `r + 4c` of a round key is byte `r` of its word `c`. -/
theorem roundBytes_column (k : RoundWords) (r c : Fin 4) :
    (roundBytes k).get ⟨r.val + 4 * c.val, by omega⟩ = (k.get c).get r := by
  have hword : (r.val + 4 * c.val) / 4 = c.val := by omega
  have hbyte : (r.val + 4 * c.val) % 4 = r.val := by omega
  simp only [roundBytes_get, hword, hbyte]

theorem roundkey_column (rk : Schedule) (n : Fin 11) (r c : Fin 4) :
    (roundkey rk n).get ⟨r.val + 4 * c.val, by omega⟩ = (rk.get ⟨4 * n.val + c.val, by omega⟩).get r := by
  rw [roundkey, roundBytes_column, roundWords_get]

/-- Blocks that agree at each row and column are equal. -/
theorem block_ext_columns {a b : Block}
    (h : ∀ r c : Fin 4, a.get ⟨r.val + 4 * c.val, by omega⟩ = b.get ⟨r.val + 4 * c.val, by omega⟩) : a = b := by
  refine vector_ext fun i => ?_
  have hi := h ⟨i.val % 4, by omega⟩ ⟨i.val / 4, by omega⟩
  simpa only [Nat.mod_add_div] using hi

/-- Round key 0 is the key (41_key_scheduler.md R96). -/
theorem roundkey_expand_zero (key : Block) : roundkey (expand key) 0 = key := by
  refine block_ext_columns fun r c => ?_
  rw [roundkey_column]
  have hword : (expand key).get ⟨4 * (0 : Fin 11).val + c.val, by omega⟩ = keyWord key c := by
    rw [← expand_get_of_lt]
    simp
  rw [hword, keyWord_get]
  simp only [Nat.add_comm]

/-- Settles O31, from the two arms of `temp` and the two kinds of schedule word. -/
theorem scheduleRecurrence : Obligations.ScheduleRecurrence := by
  refine ⟨fun _ t h => temp_of_mod_eq_zero h t, fun _ t h => temp_of_mod_ne_zero h t, mod_NK_ne_four, fun key i k => ?_,
    fun key _ => expand_recurrence key, roundkey_expand_zero⟩
  rw [expand_get_of_lt, keyWord_get]

/-- Settles O32, from the four words read as bytes and the schedule's first four words. -/
theorem roundKeyBytes : Obligations.RoundKeyBytes :=
  ⟨roundkey_column, roundkey_expand_zero⟩

/-! ### Reads of RK (20_memory.md R50, R53) -/

theorem readRound_of_words {m : List Host.Cell} {n : Nat} {k : RoundWords}
    (h : ∀ c : Fin 4, readWord m (4 * n + c.val) = .ok (k.get c)) : readRound m n = .ok k := by
  have h0 : readWord m (4 * n) = .ok (k.get 0) := h 0
  have h1 : readWord m (4 * n + 1) = .ok (k.get 1) := h 1
  have h2 : readWord m (4 * n + 2) = .ok (k.get 2) := h 2
  have h3 : readWord m (4 * n + 3) = .ok (k.get 3) := h 3
  rw [readRound, h0, h1, h2, h3]
  exact congrArg Except.ok (vector4_eta k)

theorem readWord_of_readWords {m : List Host.Cell} {i k : Nat} {ws : Vector Word k} (h : readWords m i k = .ok ws)
    {j : Nat} (hj : j < k) : readWord m (i + j) = .ok ws[j] := by
  induction k with
  | zero => omega
  | succ k ih =>
    obtain ⟨vs, hvs, h⟩ := bind_ok h
    obtain ⟨w, hw, h⟩ := bind_ok h
    obtain rfl := Except.ok.inj h
    by_cases hk : j < k
    · rw [ih hvs hk, Vector.getElem_push_lt]
    · obtain rfl : j = k := by omega
      rw [hw, Vector.getElem_push_eq]

/-- Each word of RK is that of the schedule RK is read to hold. -/
theorem readWord_of_readSchedule {m : List Host.Cell} {rk : Schedule} (h : readSchedule m = .ok rk) (i : Fin 44) :
    readWord m i.val = .ok (rk.get i) := by
  unfold readSchedule at h
  have hw := readWord_of_readWords h i.isLt
  rwa [Nat.zero_add] at hw

theorem readRound_of_readSchedule {m : List Host.Cell} {rk : Schedule} (h : readSchedule m = .ok rk) (n : Fin 11) :
    readRound m n.val = .ok (roundWords rk n) :=
  readRound_of_words fun c => by rw [roundWords_get]; exact readWord_of_readSchedule h ⟨4 * n.val + c.val, by omega⟩

/-- A memory in canonical form holds nothing past RK (20_memory.md R51). -/
theorem readCell_of_wf {m : List Host.Cell} (h : Memory.wf m = true) {x : Nat} (hx : rkBytes ≤ x) :
    readCell m x = none := by
  cases m with
  | nil => rfl
  | cons c m =>
    rw [Memory.wf, Bool.and_eq_true] at h
    exact readCell_of_bounded _ h.2 hx

/-! ### KEXP (41_key_scheduler.md R98, R102) -/

/-- Settles O16: `exec_kexp` says what KEXP answers, and `exec_keyMaterial` that no other command changes RK or KV. -/
theorem kexpCommand : Obligations.KexpCommand := by
  refine ⟨decode_kexp_word, fun n din hn => ?_, fun din s => ⟨rfl, rfl⟩, fun key s => ?_, fun s p hp hr => ?_,
    fun i s t => exec_keyMaterial, fun s => ?_⟩
  · exact shiftLeft_add_eq_cmdWord 1 n ▸ decode_nonzeroN (by decide) hn din
  · exact ⟨_, exec_kexp key s, readSchedule_scheduleMemory _, rfl, response_respond .., fun _ hrk => hrk.symm⟩
  · exact busyIgnoresPins s p hr ((cmdReady_false_iff s).2 (hp ▸ Phase.noConfusion))
  · have word {i : Nat} (hi : i < 44) {w : Word}
        (hw : (expand (blockOfBus 0x000102030405060708090a0b0c0d0e0f))[i] = w) :
        readWord (scheduleMemory (expand (blockOfBus 0x000102030405060708090a0b0c0d0e0f))) i = .ok w :=
      hw ▸ readWord_scheduleMemory _ hi
    exact ⟨_, exec_kexp _ s, response_respond .., rfl, word (by decide) (by decide +kernel),
      word (by decide) (by decide +kernel), word (by decide) (by decide +kernel), word (by decide) (by decide +kernel)⟩

/-- Settles O28: the state KEXP answers differs only where `exec_kexp` says, and its RK is the memory of a schedule. -/
theorem kexpFrame : Obligations.KexpFrame := by
  intro key s t h
  obtain rfl := Host.Outcome.next.inj ((exec_kexp key s).symm.trans h)
  exact ⟨rfl, rfl, rfl, rfl, rfl, readCell_scheduleMemory _, fun x hx => readCell_of_wf (wf_scheduleMemory _) hx⟩

/-! ### RDRK (41_key_scheduler.md R101) -/

/-- No word with `op` 4 and `n` over 10 is legal (30_encoding.md R65). -/
theorem decode_roundKeyNumber {n : BitVec 4} (hn : 10 < n.toNat) (din : BitVec 128) :
    decode (cmdWord 4 n) din = .error .roundKeyNumber := by
  have hle : ¬ n ≤ 10 := by rw [BitVec.le_def]; exact Nat.not_le.2 hn
  simp [decode, illegalWord, show ¬ n ≤ 10#4 from hle]

/-- With a key, RDRK responds with the round key of the schedule in RK. -/
theorem exec_rdrk_of_schedule {n : BitVec 4} {s : State} {rk : Schedule} (hk : s.kv = true) (hn : n.toNat ≤ 10)
    (hr : readSchedule s.rk = .ok rk) :
    exec (.rdrk n) s = .next (respond (.rdrk n) .ok (roundkey rk ⟨n.toNat, by omega⟩) s) :=
  exec_rdrk_of_key hk hn (readRound_of_readSchedule hr ⟨n.toNat, by omega⟩)

/-- Settles O19: the decoder at the words `0x4n`, NoKey without a key, and with one the round key in RK. -/
theorem rdrkCommand : Obligations.RdrkCommand := by
  refine ⟨fun n din hn => ?_, fun n din hn => ?_, fun n s hn hk => ?_, fun n s k hn hk hw => ?_,
    fun key s hk hr => ⟨?_, ?_⟩, fun s hk hr => ?_⟩
  · exact shiftLeft_add_eq_cmdWord 4 n ▸ decode_rdrk_word din hn
  · exact shiftLeft_add_eq_cmdWord 4 n ▸ decode_roundKeyNumber hn din
  · have hi : (Instr.rdrk n).wf = true := (legalRoundKey_iff n).2 hn
    have hf := commandFault_of_no_key hk hi (by simp) (by simp)
    exact ⟨_, exec_of_fault hf, rfl, rfl, rfl⟩
  · exact ⟨_, exec_rdrk_of_key hk hn (readRound_of_words hw), ⟨_, rfl, roundBytes_column k⟩, rfl, rfl, rfl, rfl, rfl⟩
  · have hzero : roundkey (expand key) ⟨(0 : BitVec 4).toNat, by decide⟩ = key := roundkey_expand_zero key
    refine ⟨_, exec_rdrk_of_schedule hk (by decide) hr, ?_⟩
    rw [hzero]
    rfl
  · exact ⟨_, _, exec_rdrk_of_schedule hk (by decide) hr, rfl, roundkey_column (expand key) 10⟩
  · have hone : roundkey (expand (blockOfBus 0x000102030405060708090a0b0c0d0e0f)) ⟨(1 : BitVec 4).toNat, by decide⟩ =
        blockOfBus 0xd6aa74fdd2af72fadaa678f1d6ab76fe := by decide +kernel
    refine ⟨_, exec_rdrk_of_schedule hk (by decide) hr, ?_⟩
    rw [hone]
    rfl

/-- Settles O27: an RDRK or a GFMUL answers with a fault or a response, and neither is a change of another register. -/
theorem readOnlyFrame : Obligations.ReadOnlyFrame := by
  intro i s t hi h
  rcases exec_next_cases h with ⟨_, -, rfl⟩ | ⟨_, rfl, -⟩ | ⟨_, _, rfl, -⟩ | ⟨_, _, rfl, -⟩ |
    ⟨_, _, -, -, -, -, rfl⟩ | ⟨_, _, -, rfl⟩
  case inr.inl | inr.inr.inl | inr.inr.inr.inl => simp at hi
  all_goals exact ⟨fun _ => rfl, rfl, rfl, rfl, rfl, rfl, rfl, rfl⟩

/-! ### The sequencer (41_key_scheduler.md R99; 42_round_engine.md R119, R120) -/

theorem produceWord_of_words {s : State} {a b : Word} (h4 : 4 ≤ s.wi.toNat) (h43 : s.wi.toNat ≤ 43)
    (ha : readWord s.rk (s.wi.toNat - 4) = .ok a) (hb : readWord s.rk (s.wi.toNat - 1) = .ok b) :
    produceWord s = .ok (putWord s.rk s.wi.toNat (Word.xor a (temp s.wi.toNat b))) := by
  rw [produceWord, if_pos ⟨h4, h43⟩, ha, hb]
  exact writeWord_ok _ _ (Nat.lt_succ_of_le h43)

theorem transformRound_of_round {s : State} {k : RoundWords} (hn : s.rnd.toNat ≤ 10)
    (hk : readRound s.rk s.rnd.toNat = .ok k) (f : Nat → RoundWords → Matrix → Matrix) :
    transformRound f s = .ok (f s.rnd.toNat k s.st) := by
  rw [transformRound, if_pos hn, hk]
  rfl

/-- A step of KEXP writes the word made; the last one sets KV and responds (41_key_scheduler.md R99). -/
theorem microStep_lastStep_kexp {s : State} {rk : List Host.Cell} (hp : s.ph = .kexp) (h : produceWord s = .ok rk) :
    microStep s = .ok { s with rk := rk, wi := s.wi + 1 } ∧
    lastStep s = .ok (respond .kexp .ok Block.zero { s with rk := rk, kv := true }) := by
  simp only [microStep, lastStep, hp, h]
  exact ⟨rfl, rfl⟩

/-- A step of ENC goes one round up; the last one responds with Store of the state (42_round_engine.md R119). -/
theorem microStep_lastStep_enc {s : State} {st : Matrix} (hp : s.ph = .enc) (h : transformRound encRound s = .ok st) :
    microStep s = .ok { s with st := st, rnd := s.rnd + 1 } ∧
    lastStep s = .ok (respond .enc .ok (store st) { s with st := st }) := by
  simp only [microStep, lastStep, hp, h]
  exact ⟨rfl, rfl⟩

/-- A step of DEC goes one round down; the last one responds with Store of the state (42_round_engine.md R120). -/
theorem microStep_lastStep_dec {s : State} {st : Matrix} (hp : s.ph = .dec) (h : transformRound decRound s = .ok st) :
    microStep s = .ok { s with st := st, rnd := s.rnd - 1 } ∧
    lastStep s = .ok (respond .dec .ok (store st) { s with st := st }) := by
  simp only [microStep, lastStep, hp, h]
  exact ⟨rfl, rfl⟩

/-- Settles O25: what a step of each sequence does with the word or the state it makes, and where a sequence ends. -/
theorem sequencerSteps : Obligations.SequencerSteps := by
  refine ⟨fun s a b hp h4 h43 ha hb => microStep_lastStep_kexp hp (produceWord_of_words h4 h43 ha hb),
    fun s k hp hn hk => microStep_lastStep_enc hp (transformRound_of_round hn hk encRound),
    fun s k hp hn hk => microStep_lastStep_dec hp (transformRound_of_round hn hk decRound),
    fun s => ⟨fun hp => ?_, fun hp => ?_, fun hp => ?_⟩⟩
  all_goals simp only [atLastStep, hp, decide_eq_true_iff]

end Sys2Proof.Machine
end

section
/-! PROOFS. The Round-Transform Engine (42_round_engine.md): each sub-operation at a row and column and on the byte
string, MixColumns and its inverse as products of coefficient vectors, the inverse pairs, the cipher and the inverse
cipher undoing each other, and the commands ENC and DEC. -/

namespace Sys2Proof.Machine

/-! ### Load, Store, AddRoundKey, SubBytes (42_round_engine.md R105 to R109) -/

theorem store_column (s : Matrix) (r c : Fin 4) : (store s).get ⟨r.val + 4 * c.val, by omega⟩ = s.at r c := by
  have hrow : (r.val + 4 * c.val) % 4 = r.val := by omega
  have hcol : (r.val + 4 * c.val) / 4 = c.val := by omega
  simp only [store_get, hrow, hcol]

@[simp] theorem store_load (b : Block) : store (load b) = b :=
  block_ext_columns fun r c => by rw [store_column, load_at]

@[simp] theorem load_store (s : Matrix) : load (store s) = s :=
  matrix_ext fun r c => by rw [load_at, store_column]

/-- Store byte by byte, column after column (42_round_engine.md R106). -/
theorem store_eq_bytes (s : Matrix) :
    store s = ⟨#[s.at 0 0, s.at 1 0, s.at 2 0, s.at 3 0, s.at 0 1, s.at 1 1, s.at 2 1, s.at 3 1,
      s.at 0 2, s.at 1 2, s.at 2 2, s.at 3 2, s.at 0 3, s.at 1 3, s.at 2 3, s.at 3 3], rfl⟩ := by
  refine vector_ext fun i => ?_
  rw [store_get]
  fin_cases i <;> rfl

/-- Settles O39, from what Load and Store put at each row and column. -/
theorem loadStore : Obligations.LoadStore :=
  ⟨load_at, store_column, store_load, by decide⟩

@[simp] theorem addRoundKey_addRoundKey (k : RoundWords) (s : Matrix) : addRoundKey k (addRoundKey k s) = s :=
  matrix_ext fun r c => by simp only [addRoundKey_at, BitVec.xor_assoc, BitVec.xor_self, BitVec.xor_zero]

/-- On the byte string AddRoundKey is XOR with the round key. -/
theorem store_addRoundKey (k : RoundWords) (s : Matrix) (i : Fin 16) :
    (store (addRoundKey k s)).get i = (store s).get i ^^^ (roundBytes k).get i := by
  simp only [store_get, addRoundKey_at, roundBytes_get]

/-- Settles O40: the bytes by `addRoundKey_at` and `store_addRoundKey`, the example with round key 0, the key. -/
theorem addRoundKeyRule : Obligations.AddRoundKeyRule := by
  refine ⟨fun rk n s r c => ?_, fun rk n s => store_addRoundKey _ s, addRoundKey_addRoundKey,
    vector_ext fun i => ?_⟩
  · rw [addRoundKey_at, roundWords_get]
  · have hkey := roundkey_expand_zero (blockOfBus 0x000102030405060708090a0b0c0d0e0f)
    rw [store_addRoundKey, store_load, ← roundkey, hkey]
    revert i
    decide

@[simp] theorem invSubBytes_subBytes (s : Matrix) : invSubBytes (subBytes s) = s :=
  matrix_ext fun r c => by rw [invSubBytes_at, subBytes_at, (sbox_invSbox _).1]

@[simp] theorem subBytes_invSubBytes (s : Matrix) : subBytes (invSubBytes s) = s :=
  matrix_ext fun r c => by rw [subBytes_at, invSubBytes_at, (sbox_invSbox _).2.1]

/-- Settles O55: the tables undo each other at every position. -/
theorem subBytesRules : Obligations.SubBytesRules :=
  ⟨subBytes_at, by decide +kernel, invSubBytes_at, invSubBytes_subBytes⟩

/-! ### ShiftRows (42_round_engine.md R110, R111) -/

@[simp] theorem invShiftRows_shiftRows (s : Matrix) : invShiftRows (shiftRows s) = s :=
  matrix_ext fun r c => by rw [invShiftRows_at, shiftRows_at, sub_add_cancel]

@[simp] theorem shiftRows_invShiftRows (s : Matrix) : shiftRows (invShiftRows s) = s :=
  matrix_ext fun r c => by rw [shiftRows_at, invShiftRows_at, add_sub_cancel_right]

/-- SubBytes works at each position alone, so it commutes with ShiftRows (42_round_engine.md R115). -/
theorem shiftRows_subBytes (s : Matrix) : shiftRows (subBytes s) = subBytes (shiftRows s) :=
  matrix_ext fun r c => by simp only [shiftRows_at, subBytes_at]

/-- The difference of two indices is the remainder in 0..3 (42_round_engine.md R111). -/
theorem sub_eq_mod (c r : Fin 4) : c - r = ⟨(c.val + 4 - r.val) % 4, by omega⟩ := by
  revert c r
  decide

/-- Settles O41: by row and column from the definitions, on the byte string by Store written out. -/
theorem shiftRowsRules : Obligations.ShiftRowsRules := by
  refine ⟨shiftRows_at, fun b => ?_, by decide, fun s r c => ?_, fun b => ?_, invShiftRows_shiftRows⟩
  · simp only [store_eq_bytes, shiftRows_at, load_at]
    rfl
  · rw [invShiftRows_at, sub_eq_mod]
  · simp only [store_eq_bytes, invShiftRows_at, load_at]
    rfl

/-! ### MixColumns (42_round_engine.md R112 to R114) -/

theorem column_mixWith (q : Word) (s : Matrix) (c : Fin 4) : column (mixWith q s) c = mixcol q (column s c) :=
  vector_ext fun r => by rw [column_get, mixWith_at, mixcol_get]

theorem matrix_ext_columns {a b : Matrix} (h : ∀ c, column a c = column b c) : a = b :=
  matrix_ext fun r c => by rw [← column_get, h, column_get]

/-- `mixcol` is the product of polynomials modulo `X^4 + 1`, and so associative. -/
theorem mixcol_mixcol (q p a : Word) : mixcol q (mixcol p a) = mixcol (mixcol q p) a := by
  refine vector_ext fun k => ?_
  simp only [mixcol_get, mixcolByte, gfmul_xor_left, gfmul_xor_right, gfmul_assoc, sub_sub, Fin.isValue,
    Fin.reduceAdd, Fin.reduceSub, sub_zero]
  ac_rfl

/-- The coefficient vector `{01,00,00,00}` is the unit of `mixcol`. -/
theorem mixcol_unit (a : Word) : mixcol ⟨#[0x01, 0x00, 0x00, 0x00], rfl⟩ a = a := by
  refine vector_ext fun k => ?_
  calc (mixcol ⟨#[0x01, 0x00, 0x00, 0x00], rfl⟩ a).get k
      = gfmul 1 (a.get k) ^^^ gfmul 0 (a.get (k - 1)) ^^^ gfmul 0 (a.get (k - 2)) ^^^ gfmul 0 (a.get (k - 3)) :=
        mixcol_get _ a k
    _ = a.get k ^^^ 0 ^^^ 0 ^^^ 0 := by rw [gfmul_one_left, gfmul_zero_left, gfmul_zero_left, gfmul_zero_left]
    _ = a.get k := by simp only [BitVec.ofNat_eq_ofNat, BitVec.xor_zero]

/-- Coefficient vectors whose product is the unit undo each other. -/
theorem mixWith_mixWith_of_unit {q p : Word} (h : mixcol q p = ⟨#[0x01, 0x00, 0x00, 0x00], rfl⟩) (s : Matrix) :
    mixWith q (mixWith p s) = s :=
  matrix_ext_columns fun c => by rw [column_mixWith, column_mixWith, mixcol_mixcol, h, mixcol_unit]

theorem mixCoefficients_product :
    mixcol mixCoefficients invMixCoefficients = ⟨#[0x01, 0x00, 0x00, 0x00], rfl⟩ := by
  decide +kernel

theorem invMixCoefficients_product :
    mixcol invMixCoefficients mixCoefficients = ⟨#[0x01, 0x00, 0x00, 0x00], rfl⟩ := by
  decide +kernel

@[simp] theorem invMixColumns_mixColumns (s : Matrix) : invMixColumns (mixColumns s) = s :=
  mixWith_mixWith_of_unit invMixCoefficients_product s

@[simp] theorem mixColumns_invMixColumns (s : Matrix) : mixColumns (invMixColumns s) = s :=
  mixWith_mixWith_of_unit mixCoefficients_product s

/-- The four bytes of `mixcol` written out (42_round_engine.md R112). -/
theorem mixcol_bytes (q a : Word) :
    (mixcol q a).get 0 = gfmul (q.get 0) (a.get 0) ^^^ gfmul (q.get 1) (a.get 3) ^^^ gfmul (q.get 2) (a.get 2) ^^^
      gfmul (q.get 3) (a.get 1) ∧
    (mixcol q a).get 1 = gfmul (q.get 0) (a.get 1) ^^^ gfmul (q.get 1) (a.get 0) ^^^ gfmul (q.get 2) (a.get 3) ^^^
      gfmul (q.get 3) (a.get 2) ∧
    (mixcol q a).get 2 = gfmul (q.get 0) (a.get 2) ^^^ gfmul (q.get 1) (a.get 1) ^^^ gfmul (q.get 2) (a.get 0) ^^^
      gfmul (q.get 3) (a.get 3) ∧
    (mixcol q a).get 3 = gfmul (q.get 0) (a.get 3) ^^^ gfmul (q.get 1) (a.get 2) ^^^ gfmul (q.get 2) (a.get 1) ^^^
      gfmul (q.get 3) (a.get 0) :=
  ⟨mixcol_get q a 0, mixcol_get q a 1, mixcol_get q a 2, mixcol_get q a 3⟩

/-- A column after `mixWith`, for coefficients given one by one: the four sums with the column's bytes in order. -/
theorem mixWith_column_bytes (q₀ q₁ q₂ q₃ : Byte) (s : Matrix) (c : Fin 4) :
    (mixWith ⟨#[q₀, q₁, q₂, q₃], rfl⟩ s).at 0 c =
      gfmul q₀ (s.at 0 c) ^^^ gfmul q₃ (s.at 1 c) ^^^ gfmul q₂ (s.at 2 c) ^^^ gfmul q₁ (s.at 3 c) ∧
    (mixWith ⟨#[q₀, q₁, q₂, q₃], rfl⟩ s).at 1 c =
      gfmul q₁ (s.at 0 c) ^^^ gfmul q₀ (s.at 1 c) ^^^ gfmul q₃ (s.at 2 c) ^^^ gfmul q₂ (s.at 3 c) ∧
    (mixWith ⟨#[q₀, q₁, q₂, q₃], rfl⟩ s).at 2 c =
      gfmul q₂ (s.at 0 c) ^^^ gfmul q₁ (s.at 1 c) ^^^ gfmul q₀ (s.at 2 c) ^^^ gfmul q₃ (s.at 3 c) ∧
    (mixWith ⟨#[q₀, q₁, q₂, q₃], rfl⟩ s).at 3 c =
      gfmul q₃ (s.at 0 c) ^^^ gfmul q₂ (s.at 1 c) ^^^ gfmul q₁ (s.at 2 c) ^^^ gfmul q₀ (s.at 3 c) := by
  obtain ⟨h0, h1, h2, h3⟩ := mixcol_bytes ⟨#[q₀, q₁, q₂, q₃], rfl⟩ (column s c)
  simp only [mixcol_get, column_get] at h0 h1 h2 h3
  simp only [mixWith_at, h0, h1, h2, h3]
  refine ⟨?_, ?_, ?_, ?_⟩
  -- each coefficient is read off the list, then the terms are sorted
  all_goals
    simp only [Vector.get]
    ac_rfl

/-- Settles O42: `mixcol` byte by byte, with the coefficient 01 dropped in the columns of MixColumns. -/
theorem mixColumnsRule : Obligations.MixColumnsRule := by
  refine ⟨mixcol_bytes, fun s c => ?_, column_mixWith _, by decide +kernel, by decide +kernel, by decide +kernel⟩
  have hbytes := mixWith_column_bytes 0x02 0x01 0x01 0x03 s c
  rwa [gfmul_one_left, gfmul_one_left, gfmul_one_left, gfmul_one_left] at hbytes

/-- Settles O43: the written-out columns, and the two coefficient vectors whose product is the unit. -/
theorem invMixColumnsRule : Obligations.InvMixColumnsRule :=
  ⟨mixWith_column_bytes _ _ _ _, column_mixWith _, fun s => ⟨invMixColumns_mixColumns s, mixColumns_invMixColumns s⟩,
    mixCoefficients_product, by decide +kernel⟩

/-! ### The two sequences (42_round_engine.md R115, R116) -/

/-- The round numbers between the first and the last. -/
def innerRounds : List (Fin 11) := [1, 2, 3, 4, 5, 6, 7, 8, 9]

/-- A round of ENC with all four sub-operations; `cipher_eq` ties it to the cipher. -/
def encInner (rk : Schedule) (s : Matrix) (n : Fin 11) : Matrix :=
  addRoundKey (roundWords rk n) (mixColumns (shiftRows (subBytes s)))

/-- A round of DEC with all four sub-operations; `invcipher_eq` ties it to the inverse cipher. -/
def decInner (rk : Schedule) (s : Matrix) (n : Fin 11) : Matrix :=
  invMixColumns (addRoundKey (roundWords rk n) (invSubBytes (invShiftRows s)))

theorem cipher_eq (rk : Schedule) (block : Block) :
    cipher rk block = store (addRoundKey (roundWords rk 10) (shiftRows (subBytes
      (innerRounds.foldl (encInner rk) (addRoundKey (roundWords rk 0) (load block)))))) := rfl

theorem invcipher_eq (rk : Schedule) (block : Block) :
    invcipher rk block = store (addRoundKey (roundWords rk 0) (invSubBytes (invShiftRows
      (innerRounds.reverse.foldl (decInner rk) (addRoundKey (roundWords rk 10) (load block)))))) := rfl

/-- Settles O44: both folds written out. -/
theorem roundSequences : Obligations.RoundSequences :=
  ⟨shiftRows_subBytes, fun rk block => ⟨cipher_eq rk block, invcipher_eq rk block⟩⟩

/-! ### Round trip (42_round_engine.md R122) -/

/-- When each `g` takes the image under `e` back over the `f` of the same index, the `g`s in reverse order take it back
over all the `f`s. -/
theorem foldl_reverse_foldl {α ι : Type} {f g : α → ι → α} {e : α → α} (h : ∀ s n, g (e (f s n)) n = e s) (l : List ι)
    (s : α) : l.reverse.foldl g (e (l.foldl f s)) = e s := by
  induction l generalizing s with
  | nil => rfl
  | cons n l ih => rw [List.foldl_cons, List.reverse_cons, List.foldl_append, ih, List.foldl_cons, List.foldl_nil, h]

/-- A round of DEC takes a state that ENC has put through SubBytes and ShiftRows one round back. -/
theorem decInner_encInner (rk : Schedule) (s : Matrix) (n : Fin 11) :
    decInner rk (shiftRows (subBytes (encInner rk s n))) n = shiftRows (subBytes s) := by
  simp only [decInner, encInner, invShiftRows_shiftRows, invSubBytes_subBytes, addRoundKey_addRoundKey,
    invMixColumns_mixColumns]

/-- A round of ENC takes a state that DEC has put through InvShiftRows and InvSubBytes one round back. -/
theorem encInner_decInner (rk : Schedule) (s : Matrix) (n : Fin 11) :
    encInner rk (invSubBytes (invShiftRows (decInner rk s n))) n = invSubBytes (invShiftRows s) := by
  simp only [decInner, encInner, shiftRows_invShiftRows, subBytes_invSubBytes, addRoundKey_addRoundKey,
    mixColumns_invMixColumns]

theorem invcipher_cipher (rk : Schedule) (p : Block) : invcipher rk (cipher rk p) = p := by
  have hrounds := foldl_reverse_foldl (e := fun s => shiftRows (subBytes s)) (decInner_encInner rk) innerRounds
    (addRoundKey (roundWords rk 0) (load p))
  rw [invcipher_eq, cipher_eq, load_store, addRoundKey_addRoundKey, hrounds, invShiftRows_shiftRows,
    invSubBytes_subBytes, addRoundKey_addRoundKey, store_load]

theorem cipher_invcipher (rk : Schedule) (p : Block) : cipher rk (invcipher rk p) = p := by
  have hrounds := foldl_reverse_foldl (e := fun s => invSubBytes (invShiftRows s)) (encInner_decInner rk)
    innerRounds.reverse (addRoundKey (roundWords rk 10) (load p))
  rw [List.reverse_reverse] at hrounds
  rw [cipher_eq, invcipher_eq, load_store, addRoundKey_addRoundKey, hrounds, subBytes_invSubBytes,
    shiftRows_invShiftRows, addRoundKey_addRoundKey, store_load]

/-- Settles O45, from the inverse pairs of the sub-operations and the two round trips. -/
theorem roundTrip : Obligations.RoundTrip :=
  ⟨fun s => ⟨invSubBytes_subBytes s, invShiftRows_shiftRows s, invMixColumns_mixColumns s⟩, addRoundKey_addRoundKey,
    store_load, fun rk p => ⟨invcipher_cipher rk p, cipher_invcipher rk p⟩⟩

/-- Under one schedule the cipher permutes the blocks. -/
theorem cipher_bijective (rk : Schedule) : Function.Bijective (cipher rk) :=
  Function.bijective_iff_has_inverse.2 ⟨invcipher rk, invcipher_cipher rk, cipher_invcipher rk⟩

/-! ### ENC and DEC (42_round_engine.md R117, R118) -/

/-- With a key ENC answers the cipher of its block and keeps RK and KV. -/
theorem exec_enc_answer {s : State} {rk : Schedule} (hk : s.kv = true) (hr : readSchedule s.rk = .ok rk)
    (block : Block) : ∃ t, exec (.enc block) s = .next t ∧ response t = some (0, cipher rk block) ∧ t.rk = s.rk ∧
      t.kv = s.kv :=
  ⟨_, exec_enc_of_key hk hr, response_respond .., rfl, rfl⟩

/-- With a key DEC answers the inverse cipher of its block and keeps RK and KV. -/
theorem exec_dec_answer {s : State} {rk : Schedule} (hk : s.kv = true) (hr : readSchedule s.rk = .ok rk)
    (block : Block) : ∃ t, exec (.dec block) s = .next t ∧ response t = some (0, invcipher rk block) ∧ t.rk = s.rk ∧
      t.kv = s.kv :=
  ⟨_, exec_dec_of_key hk hr, response_respond .., rfl, rfl⟩

/-- Without a key a well-formed command that needs one answers NoKey and keeps RK and KV (60_exceptions.md R132). -/
theorem exec_noKey_answer {i : Instr} {s : State} (hk : s.kv = false) (hi : i.wf = true) (hkexp : ∀ k, i ≠ .kexp k)
    (hgfmul : ∀ a b, i ≠ .gfmul a b) : ∃ t, exec i s = .next t ∧ response t = some (2, Block.zero) ∧ t.rk = s.rk ∧
      t.kv = s.kv :=
  ⟨_, exec_of_fault (commandFault_of_no_key hk hi hkexp hgfmul), response_raiseFault .., rfl, rfl⟩

/-- The known answer of 42_round_engine.md R117. -/
theorem cipher_example : cipher (expand (blockOfBus 0x000102030405060708090a0b0c0d0e0f))
    (blockOfBus 0x00112233445566778899aabbccddeeff) = blockOfBus 0x69c4e0d86a7b0430d8cdb78070b4c55a := by
  decide +kernel

/-- The known answer of 42_round_engine.md R118: that of R117 undone. -/
theorem invcipher_example : invcipher (expand (blockOfBus 0x000102030405060708090a0b0c0d0e0f))
    (blockOfBus 0x69c4e0d86a7b0430d8cdb78070b4c55a) = blockOfBus 0x00112233445566778899aabbccddeeff := by
  rw [← cipher_example, invcipher_cipher]

/-- Settles O17: the decoder at the words `0x2n`, the answers with and without a key, and the cipher's inverse. -/
theorem encCommand : Obligations.EncCommand := by
  refine ⟨decode_enc_word, fun n din hn => ?_, fun block s hk => ?_, fun block s rk hk hr => exec_enc_answer hk hr block,
    cipher_bijective, fun s hk hr => ?_⟩
  · exact shiftLeft_add_eq_cmdWord 2 n ▸ decode_nonzeroN (by decide) hn din
  · exact exec_noKey_answer hk rfl (by simp) (by simp)
  · obtain ⟨t, ht, hresp, -, -⟩ := exec_enc_answer hk hr (blockOfBus 0x00112233445566778899aabbccddeeff)
    exact ⟨t, ht, cipher_example ▸ hresp⟩

/-- Settles O18: the decoder at the words `0x3n`, the answers with and without a key, and the cipher's inverse. -/
theorem decCommand : Obligations.DecCommand := by
  refine ⟨decode_dec_word, fun n din hn => ?_, fun block s hk => ?_, fun block s rk hk hr => exec_dec_answer hk hr block,
    fun rk block => ⟨cipher_invcipher rk block, ?_⟩, fun s hk hr => ?_⟩
  · exact shiftLeft_add_eq_cmdWord 3 n ▸ decode_nonzeroN (by decide) hn din
  · exact exec_noKey_answer hk rfl (by simp) (by simp)
  · rintro other rfl
    exact (invcipher_cipher rk other).symm
  · obtain ⟨t, ht, hresp, -, -⟩ := exec_dec_answer hk hr (blockOfBus 0x69c4e0d86a7b0430d8cdb78070b4c55a)
    exact ⟨t, ht, invcipher_example ▸ hresp⟩

/-- Settles O26: ENC and DEC answer with a fault or a response over a new ST and RND, and touch no other register. -/
theorem transformFrame : Obligations.TransformFrame := by
  intro i s t hi h
  rcases exec_next_cases h with ⟨_, -, rfl⟩ | ⟨_, rfl, -⟩ | ⟨_, _, -, -, -, rfl⟩ | ⟨_, _, -, -, -, rfl⟩ |
    ⟨_, _, rfl, -⟩ | ⟨_, _, rfl, -⟩
  case inr.inl | inr.inr.inr.inr.inl | inr.inr.inr.inr.inr => simp at hi
  all_goals exact ⟨fun _ => rfl, rfl, rfl, rfl, rfl, rfl⟩

/-- Settles O46: between the two commands the response cycle ends, which keeps RK and KV. -/
theorem decUndoesEnc : Obligations.DecUndoesEnc := by
  intro block s rk hk hr
  have hnext {t : State} (hrk : t.rk = s.rk) (hkv : t.kv = s.kv) :
      (endResponse t).kv = true ∧ readSchedule (endResponse t).rk = .ok rk := by
    rw [endResponse_kv, endResponse_rk, hkv, hrk]
    exact ⟨hk, hr⟩
  constructor
  · obtain ⟨t, ht, hresp, hrk, hkv⟩ := exec_enc_answer hk hr block
    obtain ⟨hk', hr'⟩ := hnext hrk hkv
    obtain ⟨u, hu, hresp', -, -⟩ := exec_dec_answer hk' hr' (cipher rk block)
    exact ⟨t, _, u, ht, hresp, hu, invcipher_cipher rk block ▸ hresp'⟩
  · obtain ⟨t, ht, hresp, hrk, hkv⟩ := exec_dec_answer hk hr block
    obtain ⟨hk', hr'⟩ := hnext hrk hkv
    obtain ⟨u, hu, hresp', -, -⟩ := exec_enc_answer hk' hr' (invcipher rk block)
    exact ⟨t, _, u, ht, hresp, hu, cipher_invcipher rk block ▸ hresp'⟩

/-! ### What an answer depends on (42_round_engine.md R123) -/

/-- Which fault a command raises is settled by KV. -/
theorem commandFault_congr {s s' : State} (hkv : s.kv = s'.kv) (i : Instr) : commandFault i s' = commandFault i s := by
  cases i <;> simp only [commandFault, hkv]

/-- Settles O47: each way a command can answer rests on RK and KV alone. -/
theorem answerDependsOnKeyState : Obligations.AnswerDependsOnKeyState := by
  intro i s s' t hrk hkv h
  rcases exec_next_cases h with ⟨f, hf, rfl⟩ | ⟨key, rfl, rfl⟩ | ⟨block, rk, rfl, hk, hr, rfl⟩ |
    ⟨block, rk, rfl, hk, hr, rfl⟩ | ⟨n, k, rfl, hk, hn, hr, rfl⟩ | ⟨a, b, rfl, rfl⟩
  · exact ⟨_, exec_of_fault ((commandFault_congr hkv i).trans hf), rfl, hrk.symm, hkv.symm⟩
  · exact ⟨_, exec_kexp key s', rfl, rfl, rfl⟩
  · exact ⟨_, exec_enc_of_key (hkv ▸ hk) (hrk ▸ hr), rfl, hrk.symm, hkv.symm⟩
  · exact ⟨_, exec_dec_of_key (hkv ▸ hk) (hrk ▸ hr), rfl, hrk.symm, hkv.symm⟩
  · exact ⟨_, exec_rdrk_of_key (hkv ▸ hk) hn (hrk ▸ hr), rfl, hrk.symm, hkv.symm⟩
  · exact ⟨_, exec_gfmul a b s', rfl, hrk.symm, hkv.symm⟩

end Sys2Proof.Machine
end

section
/-! PROOFS. Faults and progress (60_exceptions.md): the responses of IllegalCommand and NoKey, which change nothing else,
and that from a sound state every operation of a step answers with a next state. -/

namespace Sys2Proof.Machine

/-! ### IllegalCommand and NoKey (60_exceptions.md R131, R132) -/

/-- Whether a word is legal does not rest on `din` (60_exceptions.md R131). -/
theorem decode_illegal_din {cmd : BitVec 8} {din : BitVec 128} {e : DecodeError} (h : decode cmd din = .error e)
    (din' : BitVec 128) : ∃ e', decode cmd din' = .error e' := by
  cases h' : decode cmd din' with
  | error e' => exact ⟨e', rfl⟩
  | ok i =>
    have hlegal : cmd ∈ legalWords := (exists_decode_ok_iff cmd din').1 ⟨i, h'⟩
    obtain ⟨j, hj⟩ := (exists_decode_ok_iff cmd din).2 hlegal
    cases h.symm.trans hj

/-- A round-key number over 10 raises IllegalCommand, before KV is looked at (60_exceptions.md R131; log 19). -/
theorem commandFault_of_not_wf {i : Instr} (hi : i.wf = false) (s : State) :
    commandFault i s = some .illegalCommand := by
  rcases commandFault_cases i s with ⟨-, hi', -⟩ | ⟨-, hi', -⟩ | ⟨hf, -⟩
  · exact absurd (hi.symm.trans hi') Bool.false_ne_true
  · exact absurd (hi.symm.trans hi') Bool.false_ne_true
  · exact hf

/-- Settles O21: without a key the command raises NoKey whatever RK holds, and KEXP and GFMUL answer with status OK. -/
theorem noKeyFault : Obligations.NoKeyFault := by
  refine ⟨fun i s hk hi hkexp hgfmul => ?_, fun key s => ?_, fun a b s => ?_⟩
  · have hanswer : ∀ u : State, u.kv = false → exec i u = .next (raiseFault .noKey u) :=
      fun u hu => exec_of_fault (commandFault_of_no_key hu hi hkexp hgfmul)
    exact ⟨_, hanswer s hk, rfl, rfl, rfl, rfl, rfl, rfl, fun rk' => ⟨_, hanswer { s with rk := rk' } hk, rfl⟩⟩
  · refine ⟨_, exec_kexp key s, ?_⟩
    rw [response_respond]
    simp [statusCode]
  · exact ⟨_, _, exec_gfmul a b s, response_respond ..⟩

/-- Settles O22: an illegal word is illegal with any `din`, and running it raises the fault and nothing more. -/
theorem illegalCommandFault : Obligations.IllegalCommandFault := by
  intro s cmd din e hd
  refine ⟨_, runWord_of_illegal hd s, response_raiseFault .., rfl, rfl, rfl, rfl, rfl, fun din' => ?_⟩
  obtain ⟨e', hd'⟩ := decode_illegal_din hd din'
  rw [runWord_of_illegal hd', runWord_of_illegal hd]

/-- Settles O23: an RDRK with a number over 10 is not well formed, and so raises IllegalCommand. -/
theorem illFormedRdrk : Obligations.IllFormedRdrk := by
  intro n s hn
  have hi : (Instr.rdrk n).wf = false := decide_eq_false (Nat.not_le.2 hn)
  exact ⟨_, exec_of_fault (commandFault_of_not_wf hi s), response_raiseFault .., rfl, rfl⟩

/-! ### Progress from a sound state (60_exceptions.md R147, 10_state.md R35) -/

/-- The last step of a command in progress in a sound state reads only words of RK that hold a value. -/
theorem Sound.lastStep_ok {s : State} (hs : Sound s) (hv : s.respValid = false) : ∃ t, lastStep s = .ok t := by
  obtain ⟨-, -, hphase, -⟩ := id hs
  cases hp : s.ph with
  | kexp =>
    obtain ⟨-, key, hr⟩ := hs.kexpRunning hp hv
    exact ⟨_, (microStep_lastStep_kexp hp hr.produceWord).2⟩
  | enc =>
    obtain ⟨hk, hrnd⟩ := (phaseInv_transform_iff (.inl hp)).1 hphase
    obtain ⟨rk, hrk⟩ := hs.schedule hk
    exact ⟨_, (microStep_lastStep_enc hp (TransformRunning.transformRound ⟨hrk, hrnd⟩ encRound)).2⟩
  | dec =>
    obtain ⟨hk, hrnd⟩ := (phaseInv_transform_iff (.inr hp)).1 hphase
    obtain ⟨rk, hrk⟩ := hs.schedule hk
    exact ⟨_, (microStep_lastStep_dec hp (TransformRunning.transformRound ⟨hrk, hrnd⟩ decRound)).2⟩
  | rdrk n =>
    obtain ⟨hk, hn⟩ := (phaseInv_rdrk_iff hp).1 hphase
    obtain ⟨rk, hrk⟩ := hs.schedule hk
    have hl : atLastStep s = true := by simp [atLastStep, hp]
    exact ⟨_, (finish_of_atLastStep hl).symm.trans (finish_rdrk hp hrk ((legalRoundKey_iff n).1 hn))⟩
  | _ =>
    simp only [lastStep, hp]
    exact ⟨_, rfl⟩

/-- A command in progress in a sound state finishes. -/
theorem Sound.finish_ok {s : State} (hs : Sound s) (hv : s.respValid = false) : ∃ t, finish s = .ok t := by
  obtain ⟨u, hu, -⟩ := hs.advance_to_lastStep hv
  obtain ⟨hs', hv'⟩ := advance_sound hu hs hv
  rw [finish, hu]
  exact hs'.lastStep_ok hv'

theorem Sound.workEdge_ok {s : State} (hs : Sound s) (hv : s.respValid = false) : ∃ t, workEdge s = .ok t := by
  unfold workEdge
  split
  · exact hs.finish_ok hv
  · obtain ⟨u, hu, -⟩ := hs.finish_advance hv (Config.stepsInCycle s.draws)
    rw [hu]
    exact ⟨_, rfl⟩

/-- No clock edge stops a sound state, whatever is on the pins (70_reset_and_hazards.md R160). -/
theorem Sound.clockEdge_ok {s : State} (hs : Sound s) (p : Pins) : ∃ t, clockEdge p s = .ok t := by
  obtain ⟨-, -, hphase, -⟩ := id hs
  cases hr : p.rst with
  | true => exact ⟨resetEdge s, by rw [clockEdge, if_pos hr]⟩
  | false =>
    by_cases hp : s.ph = .idle
    · cases hc : p.cmdValid with
      | true =>
        rw [clockEdge_accept hr hp hc]
        exact (accept_sound p.cmd p.din hs ((phaseInv_idle_iff hp).1 hphase)).workEdge_ok rfl
      | false => exact ⟨_, clockEdge_idle hr hp hc⟩
    · cases hv : s.respValid with
      | true => exact ⟨endResponse s, by rw [clockEdge_busy hr hp, if_pos hv]⟩
      | false =>
        rw [clockEdge_work hr hp hv]
        exact hs.workEdge_ok hv

/-- A command's meaning answers from every sound state: it raises a fault, needs no key, or reads the schedule that KV 1
says RK holds (10_state.md R21). -/
theorem Sound.exec_next {s : State} (hs : Sound s) (i : Instr) : ∃ t, exec i s = .next t := by
  rcases commandFault_cases i s with ⟨-, hi, ⟨key, rfl⟩ | ⟨a, b, rfl⟩ | hk⟩ | ⟨hf, -⟩ | ⟨hf, -⟩
  · exact ⟨_, exec_kexp key s⟩
  · exact ⟨_, exec_gfmul a b s⟩
  · obtain ⟨rk, hrk⟩ := hs.schedule hk
    have hr : readSchedule s.rk = .ok rk := hrk ▸ readSchedule_scheduleMemory rk
    cases i with
    | kexp key => exact ⟨_, exec_kexp key s⟩
    | enc block => exact ⟨_, exec_enc_of_key hk hr⟩
    | dec block => exact ⟨_, exec_dec_of_key hk hr⟩
    | rdrk n => exact ⟨_, exec_rdrk_of_schedule hk ((legalRoundKey_iff n).1 hi) hr⟩
    | gfmul a b => exact ⟨_, exec_gfmul a b s⟩
  · exact ⟨_, exec_of_fault hf⟩
  · exact ⟨_, exec_of_fault hf⟩

theorem Sound.runWord_next {s : State} (hs : Sound s) (cmd : BitVec 8) (din : BitVec 128) :
    ∃ t, runWord cmd din s = .next t := by
  cases hd : decode cmd din with
  | ok i =>
    rw [runWord_of_decode hd]
    exact hs.exec_next i
  | error e => exact ⟨_, runWord_of_illegal hd s⟩

/-- An operation that answers a state is a step that does. -/
theorem toOutcome_of_ok {r : Except Fault State} (h : ∃ t, r = .ok t) : ∃ t, toOutcome r = .next t := by
  obtain ⟨t, rfl⟩ := h
  exact ⟨t, rfl⟩

/-- Settles O53: each kind of move is a clock edge or a command word, and neither stops a sound state. -/
theorem noStepStops : Obligations.NoStepStops := by
  intro s hs
  cases hh : s.host with
  | nil => exact step_quiet hh ▸ toOutcome_of_ok (hs.clockEdge_ok quietPins)
  | cons e rest =>
    have hs' : Sound { s with host := rest } := hs
    cases e with
    | edge p => exact step_edge hh ▸ toOutcome_of_ok (hs'.clockEdge_ok p)
    | command cmd din =>
      by_cases hp : s.ph = .idle
      · exact step_command_idle hh hp ▸ hs'.runWord_next cmd din
      · exact step_command_busy hh hp ▸ toOutcome_of_ok (hs.clockEdge_ok (presentPins cmd din))

end Sys2Proof.Machine
end

section
/-! PROOFS. Reset and hazards (70_reset_and_hazards.md): the reset edge and the quiet cycles after it, and that without a
key no command reads RK. -/

namespace Sys2Proof.Machine

/-! ### The reset edge (70_reset_and_hazards.md R151, R152) -/

/-- Reset has priority over whatever is in progress or presented (60_exceptions.md R139). -/
theorem clockEdge_reset {p : Pins} (hr : p.rst = true) (s : State) : clockEdge p s = .ok (resetEdge s) := by
  rw [clockEdge, if_pos hr]

/-- An RK without a value answers no read inside it (20_memory.md R53; log 1). -/
theorem readWord_nil {i : Nat} (hi : i < 44) : readWord [] i = .error .rkNoValue := by
  rw [readWord, if_pos (show i < Config.NWORDS from hi)]
  rfl

/-- Settles O13: the edge is the reset edge, which lists no cell of RK. -/
theorem resetEdgeEffect : Obligations.ResetEdgeEffect :=
  fun s _ hr => ⟨resetEdge s, clockEdge_reset hr s, resetEdge_kv s, resetEdge_ph s, resetEdge_respValid s, rfl,
    fun _ => readWord_nil⟩

/-! ### An idle block left alone -/

/-- An idle block without a response stays as it is when the host has no move left. -/
theorem step_idle_quiet {s : State} (hh : s.host = []) (hp : s.ph = .idle) (hv : s.respValid = false) :
    step s = .next s := by
  have hsame : { s with respValid := false } = s := by rw [← hv]
  rw [step_quiet hh, clockEdge_idle (p := quietPins) rfl hp rfl, hsame]
  rfl

theorem run_idle_quiet {s : State} (hh : s.host = []) (hp : s.ph = .idle) (hv : s.respValid = false) (n : Nat) :
    Host.Core.run Sys2Proof.core n s = .next s := by
  induction n with
  | zero => rfl
  | succ n ih => rw [run_succ_of_next n (step_idle_quiet hh hp hv), ih]

/-- A reset with no move after it: every later cycle is the one the reset edge opens. -/
theorem run_reset_quiet {p : Pins} (hr : p.rst = true) (s : State) (n : Nat) :
    Host.Core.run Sys2Proof.core (n + 1) { s with host := [.edge p] } = .next (resetEdge { s with host := [] }) := by
  have hstep : step { s with host := [.edge p] } = .next (resetEdge { s with host := [] }) := by
    rw [step_edge rfl, clockEdge_reset hr]
    rfl
  rw [run_succ_of_next n hstep]
  exact run_idle_quiet rfl rfl rfl n

/-- Settles O14: the reset edge ends the command without a response, and the block stays in the state it leaves. -/
theorem resetAbandonsCommand : Obligations.ResetAbandonsCommand :=
  fun s _ hr _ => ⟨⟨resetEdge s, clockEdge_reset hr s, resetEdge_kv s, response_resetEdge s⟩,
    fun n => ⟨_, run_reset_quiet hr s n, response_resetEdge _, resetEdge_kv _, resetEdge_ph _⟩⟩

/-! ### What RK held, without a key (70_reset_and_hazards.md R163) -/

/-- Without a key a command is one of the two that need none, or raises a fault (60_exceptions.md R132). -/
theorem commandFault_cases_of_no_key {s : State} (hk : s.kv = false) (i : Instr) :
    (∃ f, commandFault i s = some f) ∨ (∃ key, i = .kexp key) ∨ ∃ a b, i = .gfmul a b := by
  rcases commandFault_cases i s with ⟨-, -, hkexp | hgfmul | hk'⟩ | ⟨hf, -⟩ | ⟨hf, -⟩
  · exact .inr (.inl hkexp)
  · exact .inr (.inr hgfmul)
  · exact absurd (hk.symm.trans hk') Bool.false_ne_true
  · exact .inl ⟨_, hf⟩
  · exact .inl ⟨_, hf⟩

/-- KEXP raises no fault (41_key_scheduler.md R98). -/
theorem ne_kexp_of_fault {i : Instr} {s : State} {f : CommandFault} (hf : commandFault i s = some f) (key : Block) :
    i ≠ .kexp key := by
  rintro rfl
  cases hf

/-- Settles O48: a fault and GFMUL leave RK unread, and KEXP writes all of it from its key. -/
theorem oldScheduleUnreadable : Obligations.OldScheduleUnreadable := by
  intro i s rk' hk
  rcases commandFault_cases_of_no_key hk i with ⟨f, hf⟩ | ⟨key, rfl⟩ | ⟨a, b, rfl⟩
  · have hf' : commandFault i { s with rk := rk' } = some f := (commandFault_congr rfl i).trans hf
    exact ⟨_, _, exec_of_fault hf, exec_of_fault hf', rfl, rfl, rfl, rfl, rfl,
      fun ⟨key, hi⟩ => absurd hi (ne_kexp_of_fault hf key), fun _ => ⟨rfl, rfl⟩⟩
  · exact ⟨_, _, exec_kexp key s, exec_kexp key _, rfl, rfl, rfl, rfl, rfl, fun _ => rfl, fun h => absurd rfl (h key)⟩
  · exact ⟨_, _, exec_gfmul a b s, exec_gfmul a b _, rfl, rfl, rfl, rfl, rfl, fun ⟨_, hi⟩ => (nomatch hi),
      fun _ => ⟨rfl, rfl⟩⟩

end Sys2Proof.Machine
end
